-- ==== Sys2Proof/Word.lean ====
section
/-! DEFINITION. The cell type of the machine: every cell, register and queue entry is one Int64 (spec/00_scope.md R6, R7). -/

namespace Sys2Proof

/-- One signed 64-bit value (R7): the bits of a cell, of IP, of RB or of a queue entry.
Its integer value is `BitVec.toInt`, the two's complement reading. -/
abbrev Word := BitVec 64

/-- The largest Int64, 2^63 - 1. -/
def Word.max : Word := 9223372036854775807

/-- The smallest Int64, -2^63. -/
def Word.min : Word := 9223372036854775808

end Sys2Proof
end

