-- ==== Sys2Proof/Syntax.lean ====
section
/-! DEFINITION. The ten instructions (spec/30_encoding.md R86), their modes and formats. -/

namespace Sys2Proof

/-- A parameter mode (R81). -/
inductive Mode where
  | positional
  | immediate
  | relative
  deriving DecidableEq, Repr

/-- A decoded instruction, as `Decode` of R91 gives it: the operation and the mode of each of its
parameters, first to last. The parameter words are cells of memory that the instruction reads
while it runs (R112 to R114). In `add`, `mul`, `lt`, `eq` the third parameter is the destination,
in `inp` the only one (R83). -/
inductive Instr where
  /-- ADD, opcode 1 (R130). -/
  | add (mA mB mC : Mode)
  /-- MUL, opcode 2 (R131). -/
  | mul (mA mB mC : Mode)
  /-- IN, opcode 3 (R140). -/
  | inp (mA : Mode)
  /-- OUT, opcode 4 (R143). -/
  | out (mA : Mode)
  /-- JT, opcode 5 (R150). -/
  | jt (mA mB : Mode)
  /-- JF, opcode 6 (R151). -/
  | jf (mA mB : Mode)
  /-- LT, opcode 7 (R160). -/
  | lt (mA mB mC : Mode)
  /-- EQ, opcode 8 (R161). -/
  | eq (mA mB mC : Mode)
  /-- ARB, opcode 9 (R170). -/
  | arb (mA : Mode)
  /-- HALT, opcode 99 (R175). -/
  | halt
  deriving DecidableEq, Repr

/-- Number of parameter words (R83). -/
def Instr.paramCount : Instr → Nat
  | .add _ _ _ => 3
  | .mul _ _ _ => 3
  | .inp _ => 1
  | .out _ => 1
  | .jt _ _ => 2
  | .jf _ _ => 2
  | .lt _ _ _ => 3
  | .eq _ _ _ => 3
  | .arb _ => 1
  | .halt => 0

/-- Length in cells: one for the instruction word and one per parameter (R84). -/
def Instr.length (i : Instr) : Nat := 1 + i.paramCount

/-- The modes of the parameters, first to last (R83). -/
def Instr.modes : Instr → List Mode
  | .add mA mB mC => [mA, mB, mC]
  | .mul mA mB mC => [mA, mB, mC]
  | .inp mA => [mA]
  | .out mA => [mA]
  | .jt mA mB => [mA, mB]
  | .jf mA mB => [mA, mB]
  | .lt mA mB mC => [mA, mB, mC]
  | .eq mA mB mC => [mA, mB, mC]
  | .arb mA => [mA]
  | .halt => []

/-- The mode of the destination parameter, for the instructions that have one (R83). -/
def Instr.destMode : Instr → Option Mode
  | .add _ _ mC => some mC
  | .mul _ _ mC => some mC
  | .inp mA => some mA
  | .out _ => none
  | .jt _ _ => none
  | .jf _ _ => none
  | .lt _ _ mC => some mC
  | .eq _ _ mC => some mC
  | .arb _ => none
  | .halt => none

/-- An Immediate destination is Positional (R115). -/
def Mode.asDest : Mode → Mode
  | .positional => .positional
  | .immediate => .positional
  | .relative => .relative

/-- The canonical form of an instruction: its destination's mode digit is 0 or 2 (R92). -/
def Instr.canonical : Instr → Instr
  | .add mA mB mC => .add mA mB mC.asDest
  | .mul mA mB mC => .mul mA mB mC.asDest
  | .inp mA => .inp mA.asDest
  | .out mA => .out mA
  | .jt mA mB => .jt mA mB
  | .jf mA mB => .jf mA mB
  | .lt mA mB mC => .lt mA mB mC.asDest
  | .eq mA mB mC => .eq mA mB mC.asDest
  | .arb mA => .arb mA
  | .halt => .halt

/-- An assembled instruction: the operation and its parameter words in order (R80, R94). -/
structure Code where
  instr : Instr
  params : List Word
  deriving DecidableEq, Repr

end Sys2Proof
end

