-- ==== Sys2Proof/WellFormed.lean ====
section
/-! DEFINITION. Which terms are canonical instructions (spec/30_encoding.md R83, R92). The machine runs the others too: the decoder accepts every mode digit (R81, R115). -/

namespace Sys2Proof

/-- The destination, where there is one, is not written in Immediate mode (R92: "a destination's
digit in 0, 2 only"). -/
def Instr.wellFormed (i : Instr) : Bool := i.destMode != some .immediate

/-- A canonical instruction with exactly the parameter words its format has (R83, R84). -/
def Code.wellFormed (c : Code) : Bool :=
  c.instr.wellFormed && c.params.length == c.instr.paramCount

end Sys2Proof
end

