-- ==== Sys2Proof/Decode.lean ====
section
/-! DEFINITION. Decoding and encoding of instruction words (spec/30_encoding.md R80 to R92): the fields are decimal digits. -/

namespace Sys2Proof

/-- Why a word, or a list of cells, is no instruction. -/
inductive DecodeError where
  /-- The word is negative (R88). -/
  | negativeWord
  /-- The two low decimal digits are no opcode (R87). -/
  | unknownOpcode (op : Nat)
  /-- A list of cells ends before the instruction does (only `disassemble` says so: in the
  machine the cells go on with zeros). -/
  | missingCell
  deriving DecidableEq, Repr

/-- Decimal digit `k` of `w`, digit 0 the units (R8). -/
def digit (w k : Nat) : Nat := w / 10 ^ k % 10

/-- The mode a digit stands for (R81): every digit but 1 and 2 is Positional. -/
def modeOfDigit (d : Nat) : Mode :=
  if d = 1 then .immediate else if d = 2 then .relative else .positional

/-- The instruction a non-negative word `n` stands for (R91). -/
def decodeNat (n : Nat) : Except DecodeError Instr :=
  let mA := modeOfDigit (digit n 2)
  let mB := modeOfDigit (digit n 3)
  let mC := modeOfDigit (digit n 4)
  match n % 100 with
  | 1 => .ok (.add mA mB mC)
  | 2 => .ok (.mul mA mB mC)
  | 3 => .ok (.inp mA)
  | 4 => .ok (.out mA)
  | 5 => .ok (.jt mA mB)
  | 6 => .ok (.jf mA mB)
  | 7 => .ok (.lt mA mB mC)
  | 8 => .ok (.eq mA mB mC)
  | 9 => .ok (.arb mA)
  | 99 => .ok .halt
  | op => .error (.unknownOpcode op)

/-- `Decode(W)` (R91), total on Int64: a negative word is refused first (R88). -/
def decode (w : Word) : Except DecodeError Instr :=
  if w.toInt < 0 then .error .negativeWord else decodeNat w.toNat

/-- The canonical digit of a mode (R81, R94). -/
def modeDigit : Mode → Nat
  | .positional => 0
  | .immediate => 1
  | .relative => 2

/-- The opcode (R86). -/
def opcode : Instr → Nat
  | .add _ _ _ => 1
  | .mul _ _ _ => 2
  | .inp _ => 3
  | .out _ => 4
  | .jt _ _ => 5
  | .jf _ _ => 6
  | .lt _ _ _ => 7
  | .eq _ _ _ => 8
  | .arb _ => 9
  | .halt => 99

/-- The mode digits as one number: 1 * A + 10 * B + 100 * C (R94), 0 for a parameter the format lacks. -/
def modeDigits : Instr → Nat
  | .add mA mB mC => modeDigit mA + 10 * modeDigit mB + 100 * modeDigit mC
  | .mul mA mB mC => modeDigit mA + 10 * modeDigit mB + 100 * modeDigit mC
  | .inp mA => modeDigit mA
  | .out mA => modeDigit mA
  | .jt mA mB => modeDigit mA + 10 * modeDigit mB
  | .jf mA mB => modeDigit mA + 10 * modeDigit mB
  | .lt mA mB mC => modeDigit mA + 10 * modeDigit mB + 100 * modeDigit mC
  | .eq mA mB mC => modeDigit mA + 10 * modeDigit mB + 100 * modeDigit mC
  | .arb mA => modeDigit mA
  | .halt => 0

/-- The instruction word (R94): `10000*c + 1000*b + 100*a + OP`. -/
def encode (i : Instr) : Word := BitVec.ofNat 64 (100 * modeDigits i + opcode i)

/-- The cells of an assembled instruction: the word, then its parameter words (R80, R94). -/
def assemble (c : Code) : List Word := encode c.instr :: c.params

/-- Read one instruction with its parameter words from a list of cells, and give the rest (R84). -/
def disassemble : List Word → Except DecodeError (Code × List Word)
  | [] => .error .missingCell
  | w :: rest =>
    match decode w with
    | .error e => .error e
    | .ok i =>
      if rest.length < i.paramCount then .error .missingCell
      else .ok (⟨i, rest.take i.paramCount⟩, rest.drop i.paramCount)

/-- Cell `k` of an instruction laid out as bits, 64 bits a cell, bit 0 the least significant bit of
the first cell; bits from `nbits` on are 0. -/
def tableCell (nbits w k : Nat) : Word := BitVec.ofNat 64 (w % 2 ^ nbits / 2 ^ (64 * k))

/-- What the decoder reads from an instruction whose bits are `w`: its first cell is the instruction
word, and that word alone decides the instruction (R84, R91). -/
def decodeTableWord (nbits w : Nat) : Option Instr :=
  match decode (tableCell nbits w 0) with
  | .ok i => some i
  | .error _ => none

end Sys2Proof
end

