-- ==== Sys2Proof/Config.lean ====
section
/-! DEFINITION. What an implementation fixes (the three OPEN parameters of spec/92_eei_decisions.md) and the model's one free value. -/

namespace Sys2Proof

/-- The parameters the spec leaves OPEN (R6): a model takes them as arguments. They stand in State as
plain data no step writes, so that every statement holds for every setting (log entry 4). -/
structure Config where
  /-- MEM_LIMIT: the first address the memory controller cannot hold; unset by default (R55). -/
  memLimit : Option Nat
  /-- INQ_CAP: the most entries INQ can hold; unset by default (R144). -/
  inqCap : Option Nat
  /-- OUTQ_CAP: the most entries OUTQ can hold; unset by default (R144). -/
  outqCap : Option Nat
  deriving DecidableEq, Repr

/-- The default setting: all three unset (R6). -/
def Config.default : Config := { memLimit := none, inqCap := none, outqCap := none }

/-- FREE VALUE. How many cells beyond the least length the n-th growth of the tape adds: the source
says "at least `2 * address + 1` elements" and no more (R52, U1). No value of it can be proved
(log entry 3, safe). -/
opaque Config.growthExtra : Nat → Nat

end Sys2Proof
end

