-- ==== Sys2Proof/Machine/State.lean ====
section
/-! DEFINITION. The whole state of the machine (spec/10_state.md), the host's commands and replies (spec/47_host_interface.md R185), the reasons a step can stop, and the state after reset. -/

namespace Sys2Proof.Machine

/-- STATUS, the run status (R23): an enumeration with exactly these three values. -/
inductive Status where
  | running
  | yielded
  | halted
  deriving DecidableEq, Repr

/-- FCAUSE (R30, R210): `none` is the value 0 the latch holds while clear. -/
inductive Cause where
  | none
  | illegalInstruction
  | addressFault
  | queueOverflow
  deriving DecidableEq, Repr

/-- What `raise X(info)` of R213 is given: the cause and the value for FINFO. -/
structure Raise where
  cause : Cause
  info : Word
  deriving DecidableEq, Repr

/-- MEM (R26, R51): the cells that do not read 0, as (address, cell) pairs. The unit is the cell:
R56 forbids cells held as bytes (log entry 1). -/
abbrev Memory := List (Nat × Word)

/-- The one canonical form: addresses strictly rising, and no entry equal to what an unlisted
address reads as, which is 0 (R51). -/
abbrev Memory.wf (m : Memory) : Prop :=
  m.Pairwise (fun x y => x.1 < y.1) ∧ ∀ x ∈ m, x.2 ≠ 0

/-- The host's commands (R185). -/
inductive HostCommand where
  /-- LOAD (R186). -/
  | load (image : List Word)
  /-- CFG_CELL0 (R187). -/
  | cfgCell0 (v : Word)
  /-- CFG_NOUN_VERB (R188). -/
  | cfgNounVerb (noun verb : Word)
  /-- SEED_INPUT (R189). -/
  | seedInput (values : List Word)
  /-- PUSH_INPUT (R190). -/
  | pushInput (v : Word)
  /-- RUN (R192, R193). -/
  | run
  /-- READ_STATUS (R194). -/
  | readStatus
  /-- READ_OUTPUT (R195). -/
  | readOutput
  /-- PEEK (R196). -/
  | peek (a : Word)
  deriving DecidableEq, Repr

/-- What a command that returns something returns (R185). -/
inductive HostReply where
  /-- READ_STATUS: STATUS as 0, 1, 2, and FAULT, FCAUSE, FIP, FINFO (R194). -/
  | status (status fault fcause : Nat) (fip finfo : Word)
  /-- READ_OUTPUT: a copy of OUTQ, oldest first (R195). -/
  | output (values : List Word)
  /-- PEEK: one cell (R196). -/
  | cell (v : Word)
  deriving DecidableEq, Repr

/-- The state: everything spec/10_state.md gives the machine, the parameters an implementation
fixes, and the host's side of the conversation. -/
structure State where
  /-- IP, the instruction pointer (R21). -/
  ip : Word
  /-- RB, the relative base (R22). -/
  rb : Word
  /-- STATUS (R23). -/
  status : Status
  /-- MEM, the tape (R26). -/
  mem : Memory
  /-- LEN, the hidden length of the tape (R27). -/
  len : Nat
  /-- INQ, head first (R28). -/
  inq : List Word
  /-- OUTQ, oldest first (R29). -/
  outq : List Word
  /-- FAULT, the sticky latch bit (R30). -/
  fault : Bool
  /-- FCAUSE (R30). -/
  fcause : Cause
  /-- FIP (R30). -/
  fip : Word
  /-- FINFO (R30). -/
  finfo : Word
  /-- A RUN command is in progress (R11, R121, R192). -/
  runActive : Bool
  /-- MEM_LIMIT, INQ_CAP, OUTQ_CAP (R6): written by no step. -/
  cfg : Config
  /-- The model's own: growths of the tape so far, the argument of the free part of LEN (log entry 3). -/
  growths : Nat
  /-- The model's own: the commands the host has still to issue, in order (log entry 2). -/
  pending : List HostCommand
  /-- The model's own: what the host's read commands have returned, oldest first (log entry 2). -/
  replies : List HostReply
  deriving DecidableEq, Repr

/-- Why a step ends in a fault outcome. -/
inductive Fault where
  /-- Answered by `step` when no RUN is in progress, the host issues nothing more and FAULT = 1: the
  machine is dead until LOAD (R121, R214). The fault itself was taken as a next state (R213).
  Safe: nothing follows. -/
  | latched (cause : Cause) (fip finfo : Word)
  deriving DecidableEq, Repr

/-- Why a host command is refused (R203). -/
inductive CommandRefusal where
  /-- Any command but LOAD and READ_STATUS while FAULT = 1 (R199). -/
  | faulted
  /-- PEEK at a negative address. -/
  | negativeAddress
  /-- PEEK at an address not below MEM_LIMIT. -/
  | addressBeyondLimit
  /-- LOAD of an image longer than MEM_LIMIT. -/
  | imageTooLong
  /-- CFG_CELL0 with MEM_LIMIT below 1, CFG_NOUN_VERB with it below 3. -/
  | cellsBeyondLimit
  /-- PUSH_INPUT or SEED_INPUT that would exceed INQ_CAP. -/
  | inputQueueFull
  deriving DecidableEq, Repr

/-- Why a step is refused. -/
inductive Refusal where
  /-- An instruction with no meaning yet; no arm of `exec` answers it. Safe. -/
  | notModelled (mnemonic : String)
  /-- Answered by `step` for a host command outside its legal conditions (R12, R203): it has no
  effect on any state. Safe: the model stops where the host could go on with its next command. -/
  | hostCommand (why : CommandRefusal)
  /-- Answered by `step` when no RUN is in progress, FAULT = 0 and the host issues nothing more:
  CORE has no step (R121). It carries STATUS, so that halted, yielded and ready machines stay
  apart (R228). Safe. -/
  | awaitingHost (status : Status)
  deriving DecidableEq, Repr

/-- Reset: the result of LOAD of the empty image (R33, R240, R241), with the default parameters
(R6) and a host that has issued nothing after it. -/
def State.reset : State where
  ip := 0
  rb := 0
  status := .running
  mem := []
  len := 0
  inq := []
  outq := []
  fault := false
  fcause := .none
  fip := 0
  finfo := 0
  runActive := false
  cfg := Config.default
  growths := 0
  pending := []
  replies := []

end Sys2Proof.Machine
end

