-- ==== Sys2Proof/Machine/Ops.lean ====
section
/-! DEFINITION. The named operations: wrap64, the tape (spec/20_memory.md), fault entry (spec/60_exceptions.md R213), fetch and the normal advance. -/

namespace Sys2Proof.Machine

/-- `wrap64(z)` (R8): the Int64 congruent to `z` modulo 2^64. Every sum and product that could leave
the range is exact on integers and narrowed here alone (R133, log entry 5). -/
def wrap64 (z : Int) : Word := BitVec.ofInt 64 z

/-- What an address that is not listed reads as: 0 (R51). -/
def Memory.unlisted : Word := 0

/-- `MEM[a]` (R51). -/
def Memory.read : Memory → Nat → Word
  | [], _ => Memory.unlisted
  | (k, v) :: rest, a => if a = k then v else Memory.read rest a

/-- Put an entry in front of the first higher address. -/
def Memory.insert : Memory → Nat → Word → Memory
  | [], a, v => [(a, v)]
  | (k, w) :: rest, a, v =>
    if a < k then (a, v) :: (k, w) :: rest else (k, w) :: Memory.insert rest a v

/-- `MEM[a] <- v` (R54), in canonical form: the value an unlisted address reads as is not listed. -/
def Memory.write (m : Memory) (a : Nat) (v : Word) : Memory :=
  let others := m.filter (fun x => x.1 != a)
  if v = Memory.unlisted then others else Memory.insert others a v

/-- The memory an image gives, its first cell at address `k` (R186). -/
def Memory.ofImageFrom : Nat → List Word → Memory
  | _, [] => []
  | k, v :: rest =>
    if v = Memory.unlisted then Memory.ofImageFrom (k + 1) rest
    else (k, v) :: Memory.ofImageFrom (k + 1) rest

/-- An address is valid when it is not negative and below MEM_LIMIT where that is set (R55). -/
def validAddr (cfg : Config) (a : Word) : Bool :=
  decide (0 ≤ a.toInt) &&
    match cfg.memLimit with
    | none => true
    | some limit => decide (a.toInt < (limit : Int))

/-- LEN after an access to `a` (R52): at least `2*a + 1` where `a` lay beyond it. How much more is
free (U1, log entry 3). -/
def grownLen (len growths a : Nat) : Nat :=
  if a < len then len else max len (2 * a + 1) + Config.growthExtra growths

/-- The effect of any access to a valid address on the hidden length (R52, R53): nothing else changes. -/
def touch (s : State) (a : Nat) : State :=
  { s with
    len := grownLen s.len s.growths a
    growths := if a < s.len then s.growths else s.growths + 1 }

/-- The cell an address names, without any check or growth. -/
def cellAt (s : State) (a : Word) : Word := s.mem.read a.toNat

/-- Store one cell, growing the tape. -/
def putCell (s : State) (a : Nat) (v : Word) : State :=
  { touch s a with mem := s.mem.write a v }

/-- The fault an invalid address raises (R215). -/
def addressFault (a : Word) : Raise := { cause := .addressFault, info := a }

/-- `MemRead(a, 1)` (R53). -/
def memRead (s : State) (a : Word) : Except Raise (Word × State) :=
  if validAddr s.cfg a then .ok (cellAt s a, touch s a.toNat) else .error (addressFault a)

/-- `MemWrite(a, 1, v)` (R54): the check comes before anything is written. -/
def memWrite (s : State) (a v : Word) : Except Raise State :=
  if validAddr s.cfg a then .ok (putCell s a.toNat v) else .error (addressFault a)

/-- TAKING A FAULT (R213): FAULT, FCAUSE, FIP and FINFO are written, FIP from IP, which still names
the faulting instruction word. Nothing else changes. There is no handler and no return from it
(R219): only LOAD clears the latch. -/
def raise (r : Raise) (s : State) : State :=
  { s with fault := true, fcause := r.cause, fip := s.ip, finfo := r.info }

/-- End an instruction: its next state, or, where a part of it raised a fault, the state it began
in with the fault taken (R110, R213). -/
def finish (s : State) : Except Raise State → Host.Outcome State Fault Refusal
  | .ok t => .next t
  | .error r => .next (raise r s)

/-- The next cell after `c` (R112, R116). -/
def nextCell (c : Word) : Word := wrap64 (c.toInt + 1)

/-- The normal advance (R119): `IP <- wrap64(c + 1)`, `c` the last cell consumed. -/
def advance (c : Word) (s : State) : State := { s with ip := nextCell c }

/-- The fetch of the instruction word (R111). -/
def fetch (s : State) : Except Raise (Word × State) := memRead s s.ip

/-- The fault an illegal word raises (R211). -/
def illegalInstruction (w : Word) : Raise := { cause := .illegalInstruction, info := w }

/-- The fault of OUT on a full buffer (R212). -/
def queueOverflow : Raise := { cause := .queueOverflow, info := 0 }

end Sys2Proof.Machine
end

