-- ==== Sys2Proof/Machine/Operands.lean ====
section
/-! DEFINITION. Operand resolution (spec/40_operand_resolution.md R112 to R117): ReadParam, DestParam, and the accesses of an instruction in their fixed order. -/

namespace Sys2Proof.Machine

/-- The effective address of a value parameter in cell `c` holding `p` (R113). -/
def valueAddress (m : Mode) (rb c p : Word) : Word :=
  match m with
  | .positional => p
  | .immediate => c
  | .relative => wrap64 (rb.toInt + p.toInt)

/-- The address a destination parameter holding `p` names (R114): Immediate is Positional (R115). -/
def destAddress (m : Mode) (rb p : Word) : Word :=
  match m with
  | .positional => p
  | .immediate => p
  | .relative => wrap64 (rb.toInt + p.toInt)

/-- `ReadParam(m)` (R113) with the cursor at `c`: the value, the new cursor, the state. -/
def readParam (m : Mode) (c : Word) (s : State) : Except Raise (Word × Word × State) := do
  let c := nextCell c
  let (p, s) ← memRead s c
  let (v, s) ← memRead s (valueAddress m s.rb c p)
  return (v, c, s)

/-- `DestParam(m)` (R114) with the cursor at `c`: the address, not yet checked, the new cursor, the state. -/
def destParam (m : Mode) (c : Word) (s : State) : Except Raise (Word × Word × State) := do
  let c := nextCell c
  let (p, s) ← memRead s c
  return (destAddress m s.rb p, c, s)

/-- Format VVD (R83): two values, the result of `f` stored at the destination, normal advance (R119). -/
def storeBinary (f : Word → Word → Word) (mA mB mC : Mode) (s : State) :
    Host.Outcome State Fault Refusal :=
  finish s do
    let (a, c, t) ← readParam mA s.ip s
    let (b, c, t) ← readParam mB c t
    let (d, c, t) ← destParam mC c t
    let t ← memWrite t d (f a b)
    return advance c t

/-- Format VV (R83): both values are read whether or not the jump is taken; taken, IP is the second
value, unchecked (R150, R151). -/
def jumpWhen (test : Word → Bool) (mA mB : Mode) (s : State) : Host.Outcome State Fault Refusal :=
  finish s do
    let (a, c, t) ← readParam mA s.ip s
    let (b, c, t) ← readParam mB c t
    return if test a then { t with ip := b } else advance c t

/-- Format V (R83): one value, then what the instruction does with it, then the normal advance. -/
def consumeValue (act : Word → State → Except Raise State) (mA : Mode) (s : State) :
    Host.Outcome State Fault Refusal :=
  finish s do
    let (a, c, t) ← readParam mA s.ip s
    let t ← act a t
    return advance c t

/-- The cell of the `k`-th parameter of the instruction at IP (R112: `wrap64(IP + k)`). -/
def paramCell (s : State) (k : Nat) : Word := wrap64 (s.ip.toInt + k)

/-- The effective address of the `k`-th parameter, a value parameter of mode `m`. -/
def valueAddr (s : State) (k : Nat) (m : Mode) : Word :=
  valueAddress m s.rb (paramCell s k) (cellAt s (paramCell s k))

/-- The value of the `k`-th parameter, a value parameter of mode `m`. -/
def valueOf (s : State) (k : Nat) (m : Mode) : Word := cellAt s (valueAddr s k m)

/-- The address the `k`-th parameter, a destination parameter of mode `m`, names. -/
def destAddr (s : State) (k : Nat) (m : Mode) : Word :=
  destAddress m s.rb (cellAt s (paramCell s k))

/-- The accesses of a value parameter in order (R117): its word, then its operand. -/
def valueAccesses (s : State) (k : Nat) (m : Mode) : List Word := [paramCell s k, valueAddr s k m]

/-- The accesses of a destination parameter and of the write it is for, in order (R117). -/
def destAccesses (s : State) (k : Nat) (m : Mode) : List Word := [paramCell s k, destAddr s k m]

/-- The addresses an instruction accesses after its fetch, in the order of R117. IN accesses none
when INQ is empty (R142). -/
def accesses (s : State) : Instr → List Word
  | .add mA mB mC => valueAccesses s 1 mA ++ valueAccesses s 2 mB ++ destAccesses s 3 mC
  | .mul mA mB mC => valueAccesses s 1 mA ++ valueAccesses s 2 mB ++ destAccesses s 3 mC
  | .inp mA => if s.inq = [] then [] else destAccesses s 1 mA
  | .out mA => valueAccesses s 1 mA
  | .jt mA mB => valueAccesses s 1 mA ++ valueAccesses s 2 mB
  | .jf mA mB => valueAccesses s 1 mA ++ valueAccesses s 2 mB
  | .lt mA mB mC => valueAccesses s 1 mA ++ valueAccesses s 2 mB ++ destAccesses s 3 mC
  | .eq mA mB mC => valueAccesses s 1 mA ++ valueAccesses s 2 mB ++ destAccesses s 3 mC
  | .arb mA => valueAccesses s 1 mA
  | .halt => []

/-- The first of some addresses that is not valid: the one whose access faults (R216). -/
def firstInvalid (cfg : Config) (as : List Word) : Option Word :=
  as.find? (fun a => !validAddr cfg a)

end Sys2Proof.Machine
end

