-- ==== Sys2Proof/Machine/Arithmetic.lean ====
section
/-! DEFINITION. ADD and MUL (spec/41_arithmetic.md). -/

namespace Sys2Proof.Machine

/-- The exact sum, wrapped (R130, R132). -/
def wrappedSum (a b : Word) : Word := wrap64 (a.toInt + b.toInt)

/-- The exact signed product, wrapped (R131, R132). -/
def wrappedProduct (a b : Word) : Word := wrap64 (a.toInt * b.toInt)

/-- ADD (R130). -/
def execAdd (mA mB mC : Mode) (s : State) : Host.Outcome State Fault Refusal :=
  storeBinary wrappedSum mA mB mC s

/-- MUL (R131). -/
def execMul (mA mB mC : Mode) (s : State) : Host.Outcome State Fault Refusal :=
  storeBinary wrappedProduct mA mB mC s

end Sys2Proof.Machine
end

