-- ==== Sys2Proof/Machine/Flags.lean ====
section
/-! DEFINITION. Tests and their results. The hardware has no condition flags: STATUS is its only flag (spec/10_state.md R23); a comparison's 0 or 1 goes to a cell (spec/44_compare.md), and a jump tests a value (spec/43_jumps.md). -/

namespace Sys2Proof.Machine

/-- The result of LT (R160): signed. -/
def lessThan (a b : Word) : Word := if a.toInt < b.toInt then 1 else 0

/-- The result of EQ (R161): all 64 bits. -/
def equals (a b : Word) : Word := if a = b then 1 else 0

/-- The test of JT (R150): any value but 0. -/
def isNonzero (a : Word) : Bool := a != 0

/-- The test of JF (R151): exactly 0. -/
def isZero (a : Word) : Bool := a == 0

/-- STATUS as a number, for READ_STATUS only (R23, R194). -/
def Status.code : Status → Nat
  | .running => 0
  | .yielded => 1
  | .halted => 2

/-- FCAUSE as a number (R210); 0 while the latch is clear (R33). -/
def Cause.code : Cause → Nat
  | .none => 0
  | .illegalInstruction => 1
  | .addressFault => 2
  | .queueOverflow => 3

end Sys2Proof.Machine
end

