-- ==== Sys2Proof/Machine/Compare.lean ====
section
/-! DEFINITION. LT and EQ (spec/44_compare.md). -/

namespace Sys2Proof.Machine

/-- LT (R160). -/
def execLt (mA mB mC : Mode) (s : State) : Host.Outcome State Fault Refusal :=
  storeBinary lessThan mA mB mC s

/-- EQ (R161). -/
def execEq (mA mB mC : Mode) (s : State) : Host.Outcome State Fault Refusal :=
  storeBinary equals mA mB mC s

end Sys2Proof.Machine
end

