-- ==== Sys2Proof/Machine/InputOutput.lean ====
section
/-! DEFINITION. IN and OUT (spec/42_io.md). -/

namespace Sys2Proof.Machine

/-- IN (R140): on an empty queue it yields, touching nothing else (R142); otherwise the head of INQ
is stored and only then removed. -/
def execIn (mA : Mode) (s : State) : Host.Outcome State Fault Refusal :=
  match s.inq with
  | [] => .next { s with status := .yielded }
  | v :: rest =>
    finish s do
      let (d, c, t) ← destParam mA s.ip s
      let t ← memWrite t d v
      return advance c { t with inq := rest }

/-- Append to OUTQ (R143), or QueueOverflow where OUTQ_CAP is set and OUTQ holds that many (R212). -/
def appendOutput (v : Word) (s : State) : Except Raise State :=
  if s.cfg.outqCap = some s.outq.length then .error queueOverflow
  else .ok { s with outq := s.outq ++ [v] }

/-- OUT (R143). -/
def execOut (mA : Mode) (s : State) : Host.Outcome State Fault Refusal :=
  consumeValue appendOutput mA s

end Sys2Proof.Machine
end

