-- ==== Sys2Proof/Machine/Jumps.lean ====
section
/-! DEFINITION. JT and JF (spec/43_jumps.md). -/

namespace Sys2Proof.Machine

/-- JT (R150). -/
def execJt (mA mB : Mode) (s : State) : Host.Outcome State Fault Refusal :=
  jumpWhen isNonzero mA mB s

/-- JF (R151). -/
def execJf (mA mB : Mode) (s : State) : Host.Outcome State Fault Refusal :=
  jumpWhen isZero mA mB s

end Sys2Proof.Machine
end

