-- ==== Sys2Proof/Machine/RelativeBase.lean ====
section
/-! DEFINITION. ARB (spec/45_relative_base.md). -/

namespace Sys2Proof.Machine

/-- `RB <- wrap64(RB + a)` (R170). -/
def adjustBase (a : Word) (s : State) : Except Raise State :=
  .ok { s with rb := wrap64 (s.rb.toInt + a.toInt) }

/-- ARB (R170): in Relative mode the value is read with the old RB. -/
def execArb (mA : Mode) (s : State) : Host.Outcome State Fault Refusal :=
  consumeValue adjustBase mA s

end Sys2Proof.Machine
end

