-- ==== Sys2Proof/Machine/System.lean ====
section
/-! DEFINITION. HALT (spec/46_system.md). -/

namespace Sys2Proof.Machine

/-- HALT (R175): STATUS is Halted and IP advances by its one cell. -/
def execHalt (s : State) : Host.Outcome State Fault Refusal :=
  .next (advance s.ip { s with status := .halted })

end Sys2Proof.Machine
end

