-- ==== Sys2Proof/Machine/Dispatch.lean ====
section
/-! DEFINITION. One arm per instruction (spec/30_encoding.md R86). -/

namespace Sys2Proof.Machine

/-- `execute I` of R110. -/
def exec (i : Instr) (s : State) : Host.Outcome State Fault Refusal :=
  match i with
  | .add mA mB mC => Sys2Proof.Machine.execAdd mA mB mC s
  | .mul mA mB mC => Sys2Proof.Machine.execMul mA mB mC s
  | .inp mA => Sys2Proof.Machine.execIn mA s
  | .out mA => Sys2Proof.Machine.execOut mA s
  | .jt mA mB => Sys2Proof.Machine.execJt mA mB s
  | .jf mA mB => Sys2Proof.Machine.execJf mA mB s
  | .lt mA mB mC => Sys2Proof.Machine.execLt mA mB mC s
  | .eq mA mB mC => Sys2Proof.Machine.execEq mA mB mC s
  | .arb mA => Sys2Proof.Machine.execArb mA s
  | .halt => Sys2Proof.Machine.execHalt s

end Sys2Proof.Machine
end

