-- ==== Sys2Proof/Machine/HostCommands.lean ====
section
/-! DEFINITION. The host's nine commands (spec/47_host_interface.md): their legal conditions (R203) and what they do. -/

namespace Sys2Proof.Machine

/-- MEM_LIMIT is set and below `n`. -/
def limitBelow (cfg : Config) (n : Nat) : Bool :=
  match cfg.memLimit with
  | none => false
  | some limit => decide (limit < n)

/-- INQ_CAP is set and `n` more values would exceed it. -/
def inputOverflows (s : State) (n : Nat) : Bool :=
  match s.cfg.inqCap with
  | none => false
  | some cap => decide (cap < s.inq.length + n)

/-- The refusal of `n` more input values: none on a Halted machine, which drops them silently
(R190, log entry 14). -/
def inputRefusal (s : State) (n : Nat) : Option CommandRefusal :=
  if s.status ≠ .halted ∧ inputOverflows s n then some .inputQueueFull else none

/-- The refusal of a PEEK at `a` (R196, R203). -/
def peekRefusal (s : State) (a : Word) : Option CommandRefusal :=
  if a.toInt < 0 then some .negativeAddress
  else if validAddr s.cfg a then none else some .addressBeyondLimit

/-- Why a command is refused, if it is: the complete list of R203. LOAD and READ_STATUS are legal on
a faulted machine, the others are not (R199). -/
def commandRefusal (s : State) : HostCommand → Option CommandRefusal
  | .load image => if limitBelow s.cfg image.length then some .imageTooLong else none
  | .cfgCell0 _ =>
    if s.fault then some .faulted else if limitBelow s.cfg 1 then some .cellsBeyondLimit else none
  | .cfgNounVerb _ _ =>
    if s.fault then some .faulted else if limitBelow s.cfg 3 then some .cellsBeyondLimit else none
  | .seedInput values => if s.fault then some .faulted else inputRefusal s values.length
  | .pushInput _ => if s.fault then some .faulted else inputRefusal s 1
  | .run => if s.fault then some .faulted else none
  | .readStatus => none
  | .readOutput => if s.fault then some .faulted else none
  | .peek a => if s.fault then some .faulted else peekRefusal s a

/-- LOAD (R186): every piece of the machine's state is set. The parameters and the host's own side
stay. -/
def loadImage (image : List Word) (s : State) : State :=
  { s with
    mem := Memory.ofImageFrom 0 image, len := image.length
    ip := 0, rb := 0, status := .running, inq := [], outq := []
    fault := false, fcause := .none, fip := 0, finfo := 0 }

/-- PUSH_INPUT (R190), where it is legal. -/
def pushInput (v : Word) (s : State) : State :=
  match s.status with
  | .halted => s
  | .yielded => { s with inq := s.inq ++ [v], status := .running }
  | .running => { s with inq := s.inq ++ [v] }

/-- RUN (R192, R193): OUTQ is cleared; a machine that is not Halted is Running and steps from here on. -/
def startRun (s : State) : State :=
  match s.status with
  | .halted => { s with outq := [] }
  | .yielded => { s with outq := [], status := .running, runActive := true }
  | .running => { s with outq := [], runActive := true }

/-- The answer of READ_STATUS (R194). -/
def statusReply (s : State) : HostReply :=
  .status s.status.code s.fault.toNat s.fcause.code s.fip s.finfo

/-- Give the host an answer. -/
def reply (r : HostReply) (s : State) : State := { s with replies := s.replies ++ [r] }

/-- What a legal command does (R186 to R196). -/
def performCommand (s : State) : HostCommand → State
  | .load image => loadImage image s
  | .cfgCell0 v => putCell s 0 v
  | .cfgNounVerb noun verb => putCell (putCell s 1 noun) 2 verb
  | .seedInput values => values.foldl (fun t v => pushInput v t) s
  | .pushInput v => pushInput v s
  | .run => startRun s
  | .readStatus => reply (statusReply s) s
  | .readOutput => reply (.output s.outq) s
  | .peek a => reply (.cell (cellAt s a)) (touch s a.toNat)

/-- One host command: refused, with no effect, or performed (R203). -/
def hostCommand (c : HostCommand) (s : State) : Host.Outcome State Fault Refusal :=
  match commandRefusal s c with
  | some why => .refused (.hostCommand why)
  | none => .next (performCommand s c)

end Sys2Proof.Machine
end

