-- ==== Sys2Proof/Machine/Sequencer.lean ====
section
/-! DEFINITION. Who moves next: the instruction step (spec/40_operand_resolution.md R110), the run loop (spec/47_host_interface.md R192) and the host's turn; and placing an instruction where the next step fetches it. -/

namespace Sys2Proof.Machine

/-- `Step()` (R110): fetch, decode, execute. -/
def coreStep (s : State) : Host.Outcome State Fault Refusal :=
  match fetch s with
  | .error r => .next (raise r s)
  | .ok (w, t) =>
    match decode w with
    | .error _ => .next (raise (illegalInstruction w) t)
    | .ok i => exec i t

/-- The test of the run loop (R192): `while STATUS = Running and FAULT = 0`. -/
def mayStep (s : State) : Bool := s.status == .running && !s.fault

/-- RUN returns to the host (R192, R213). -/
def endRun (s : State) : State := { s with runActive := false }

/-- No RUN in progress: the host's next command, or nothing to do (R121). -/
def hostTurn (s : State) : Host.Outcome State Fault Refusal :=
  match s.pending with
  | c :: rest => hostCommand c { s with pending := rest }
  | [] =>
    if s.fault then .fault (.latched s.fcause s.fip s.finfo) else .refused (.awaitingHost s.status)

/-- One step of the whole: inside a RUN the loop tests and steps or returns, outside one the host
has its turn (R11, R121, R192). -/
def turn (s : State) : Host.Outcome State Fault Refusal :=
  if s.runActive then
    if mayStep s then coreStep s else .next (endRun s)
  else hostTurn s

/-- Store a cell where its address is valid. -/
def placeCell (a v : Word) (s : State) : State :=
  match memWrite s a v with
  | .ok t => t
  | .error _ => s

/-- A state whose next step fetches: a RUN is in progress on a Running machine with a clear latch,
and IP is where it was, or the entry point 0 if no cell is there. -/
def readyToFetch (s : State) : State :=
  { s with
    runActive := true, status := .running, fault := false, fcause := .none, fip := 0, finfo := 0
    ip := if validAddr s.cfg s.ip then s.ip else 0 }

/-- The four cells of an instruction (the longest has four, R84) stored from IP on (log entry 6). -/
def placeInstr (cells : Nat → Word) (s : State) : State :=
  let t := readyToFetch s
  placeCell (paramCell t 3) (cells 3) <| placeCell (paramCell t 2) (cells 2) <|
    placeCell (paramCell t 1) (cells 1) <| placeCell (paramCell t 0) (cells 0) t

end Sys2Proof.Machine
end

