-- ==== Sys2Proof/Machine/Step.lean ====
section
/-! DEFINITION. The machine's one step, and the state with an instruction where it fetches next. -/

namespace Sys2Proof.Machine

/-- One step (Machine/Sequencer.lean): an instruction, the return of a RUN, or a host command. -/
def step (s : State) : Host.Outcome State Fault Refusal := turn s

/-- `s` with the instruction of bits `w` stored where `step` fetches its next instruction (log entry 6). -/
def State.withFetchWord (s : State) (nbits w : Nat) : State := placeInstr (tableCell nbits w) s

end Sys2Proof.Machine
end

