-- ==== Sys2Proof/Safety.lean ====
section
/-! DEFINITION. The terms claims use: accesses and stores, frames, the fault latch, the machine's invariant, and runs (spec/10_state.md R32, R34; spec/60_exceptions.md R214, R228). -/

namespace Sys2Proof.Machine

/-- Every address instruction `i` accesses in `s` is valid (R55), so that no AddressFault arises (R216). -/
def AccessesValid (s : State) (i : Instr) : Prop :=
  ∀ a ∈ accesses s i, validAddr s.cfg a = true

/-- `t`'s memory is `s`'s but for the one cell at `d`, which holds `v`. -/
def StoresAt (s t : State) (d v : Word) : Prop :=
  t.mem.read d.toNat = v ∧ ∀ a, a ≠ d.toNat → t.mem.read a = s.mem.read a

/-- Every cell reads as before. -/
def KeepsCells (s t : State) : Prop := ∀ a, t.mem.read a = s.mem.read a

/-- The hidden length never shrinks, and reaches beyond every address of the list (R52). -/
def LenCovers (s t : State) (as : List Word) : Prop :=
  s.len ≤ t.len ∧ ∀ a ∈ as, a.toNat < t.len

/-- Growth as R52 gives it: accesses to `as`, in order, from a length of `n` cells lead to `m`. An access
below the length leaves it, one at or beyond it leads to at least `2*a + 1`, and how much more is
free (U1, log entry 3). -/
def GrowsTo : Nat → List Word → Nat → Prop
  | n, [], m => m = n
  | n, a :: rest, m =>
    ∃ k, (if a.toNat < n then k = n else Nat.max n (2 * a.toNat + 1) ≤ k) ∧ GrowsTo k rest m

/-- What a storing instruction stores (R130, R131, R140, R160, R161). -/
def storedValue (s : State) : Instr → Option Word
  | .add mA mB _ => some (wrap64 ((valueOf s 1 mA).toInt + (valueOf s 2 mB).toInt))
  | .mul mA mB _ => some (wrap64 ((valueOf s 1 mA).toInt * (valueOf s 2 mB).toInt))
  | .inp _ => s.inq.head?
  | .out _ => none
  | .jt _ _ => none
  | .jf _ _ => none
  | .lt mA mB _ => some (if (valueOf s 1 mA).toInt < (valueOf s 2 mB).toInt then 1 else 0)
  | .eq mA mB _ => some (if (valueOf s 1 mA).toInt = (valueOf s 2 mB).toInt then 1 else 0)
  | .arb _ => none
  | .halt => none

/-- All state but IP, MEM and the hidden length is as before: RB, STATUS, both queues, the fault
latch, the RUN in progress, the parameters and the host's side. -/
def KeepsAllButIpMem (s t : State) : Prop :=
  t = { s with ip := t.ip, mem := t.mem, len := t.len, growths := t.growths }

/-- All state but IP, RB and the hidden length is as before, memory included. -/
def KeepsAllButIpRb (s t : State) : Prop :=
  t = { s with ip := t.ip, rb := t.rb, len := t.len, growths := t.growths }

/-- All state but IP and the hidden length is as before, memory included. -/
def KeepsAllButIp (s t : State) : Prop :=
  t = { s with ip := t.ip, len := t.len, growths := t.growths }

/-- All state but IP, OUTQ and the hidden length is as before, memory included. -/
def KeepsAllButIpOutq (s t : State) : Prop :=
  t = { s with ip := t.ip, outq := t.outq, len := t.len, growths := t.growths }

/-- All state but IP, MEM, INQ and the hidden length is as before. -/
def KeepsAllButIpMemInq (s t : State) : Prop :=
  t = { s with ip := t.ip, mem := t.mem, inq := t.inq, len := t.len, growths := t.growths }

/-- The fault latch as a fault with cause `c` and information `info` leaves it, raised by the
instruction at `s`'s IP (R213). Of a faulted state nothing else is claimed (R214). -/
def Latched (s t : State) (c : Cause) (info : Word) : Prop :=
  t.fault = true ∧ t.fcause = c ∧ t.fip = s.ip ∧ t.finfo = info

/-- The ten opcodes (R86). -/
def opcodes : List Nat := [1, 2, 3, 4, 5, 6, 7, 8, 9, 99]

/-- Each opcode with its number of parameters (R83). -/
def formats : List (Nat × Nat) :=
  [(1, 3), (2, 3), (3, 1), (4, 1), (5, 2), (6, 2), (7, 3), (8, 3), (9, 1), (99, 0)]

/-- No mode digit makes a word fail to decode (R81): an opcode in the low two digits, under any mode digits
for its parameters and nothing above them, is an instruction with that many parameters. -/
def EveryModeDigitDecodes : Prop :=
  ∀ f ∈ formats, ∀ w : Word, w.toNat % 100 = f.1 → w.toNat < 10 ^ (f.2 + 2) →
    ∃ i, decode w = .ok i ∧ i.modes.length = f.2

/-- `m` is the mode R81 gives digit `d`. -/
def ModeOf (d : Nat) (m : Mode) : Prop :=
  (m = .immediate ↔ d = 1) ∧ (m = .relative ↔ d = 2) ∧ (m = .positional ↔ d ≠ 1 ∧ d ≠ 2)

/-- The words of opcode `op` decode to `mk` of the modes of their digits A, B, C (R80, R81). -/
def EncodedAs (op : Nat) (mk : Mode → Mode → Mode → Instr) : Prop :=
  ∀ w : Word, 0 ≤ w.toInt → w.toNat % 100 = op →
    decode w = .ok (mk (modeOfDigit (w.toNat / 100 % 10)) (modeOfDigit (w.toNat / 1000 % 10))
      (modeOfDigit (w.toNat / 10000 % 10)))

/-- Instruction `i` run in `s` ends in the fault of its first invalid access, where there is one
(R216). -/
def FaultsFirst (s : State) (i : Instr) : Prop :=
  ∀ a, firstInvalid s.cfg (accesses s i) = some a →
    ∃ t, exec i s = .next t ∧ Latched s t .addressFault a

/-- The next step is an instruction (R121). -/
def CoreMoves (s : State) : Prop := s.runActive = true ∧ s.status = .running ∧ s.fault = false

/-- The next step is the host's command `c` (R11). -/
def HostIssues (s : State) (c : HostCommand) : Prop :=
  s.runActive = false ∧ ∃ rest, s.pending = c :: rest

/-- The next step is a LOAD. -/
def LoadIssued (s : State) : Prop := ∃ image, HostIssues s (.load image)

/-- What holds of a machine whose latch is clear (R34). -/
structure Live (s : State) : Prop where
  /-- Cells at and beyond LEN read 0 (R52). -/
  listed_below_len : ∀ x ∈ s.mem, x.1 < s.len
  /-- No cell at or beyond MEM_LIMIT is held (R55). -/
  listed_below_limit : ∀ limit, s.cfg.memLimit = some limit → ∀ x ∈ s.mem, x.1 < limit
  /-- A Yielded machine has an empty INQ (R34 item 3, R190). -/
  yielded_empty : s.status = .yielded → s.inq = []
  /-- INQ keeps to its capacity (R144). -/
  inq_cap : ∀ cap, s.cfg.inqCap = some cap → s.inq.length ≤ cap
  /-- OUTQ keeps to its capacity (R144). -/
  outq_cap : ∀ cap, s.cfg.outqCap = some cap → s.outq.length ≤ cap

/-- The invariant every step keeps: the form of memory, the latch, and, while FAULT = 0 (R214), `Live`. -/
structure Inv (s : State) : Prop where
  canonical : s.mem.wf
  /-- A clear latch holds zeros (R33). -/
  latch_clear : s.fault = false → s.fcause = .none ∧ s.fip = 0 ∧ s.finfo = 0
  /-- A set latch names one of the three causes (R210). -/
  latch_set : s.fault = true → s.fcause ≠ .none
  live : s.fault = false → Live s

/-- A state without its hidden length, which nothing may depend on (R27). -/
def forgetLen (s : State) : State := { s with len := 0, growths := 0 }

/-- An outcome without the hidden length of its state. -/
def forgetOutcome : Host.Outcome State Fault Refusal → Host.Outcome State Fault Refusal
  | .next s => .next (forgetLen s)
  | .fault r => .fault r
  | .refused r => .refused r

/-- The part of a reply a claim may read: STATUS is unspecified in a READ_STATUS that reports FAULT = 1
(R194). -/
def HostReply.definedPart : HostReply → HostReply
  | .status st fault fcause fip finfo => .status (if fault = 0 then st else 0) fault fcause fip finfo
  | .output vs => .output vs
  | .cell v => .cell v

/-- The part of a state a claim may read: all of it while FAULT = 0, and of a faulted machine only the
latch, the RUN in progress, the parameters and the host's side (R30, R214, log entry 7). The rest
is replaced by its values at reset. -/
def definedPart (s : State) : State :=
  if s.fault then
    { State.reset with
      fault := s.fault, fcause := s.fcause, fip := s.fip, finfo := s.finfo
      runActive := s.runActive, cfg := s.cfg, pending := s.pending
      replies := s.replies.map HostReply.definedPart }
  else s

/-- The part of an outcome a claim may read. -/
def definedOutcome : Host.Outcome State Fault Refusal → Host.Outcome State Fault Refusal
  | .next s => .next (definedPart s)
  | .fault r => .fault r
  | .refused r => .refused r

/-- Two outcomes agree in all that a claim may read: entirely where FAULT = 0, in the latch where
FAULT = 1 (R214). -/
def SameOutcome (o p : Host.Outcome State Fault Refusal) : Prop := definedOutcome o = definedOutcome p

/-- The states some number of steps leads to before the next LOAD: the life of one program (R33). A
LOAD begins another, and it alone clears a fault (R214). -/
inductive Reaches (s : State) : State → Prop where
  | refl : Reaches s s
  | tail {t u : State} : Reaches s t → ¬ LoadIssued t → step t = .next u → Reaches s u

/-- No fault is raised: the premise of any claim about a program (R214). -/
def FaultFree (s : State) : Prop := ∀ t, Reaches s t → t.fault = false

/-- The final state of a halted run (R178): HALT was executed, no fault, RUN has returned. -/
def HaltedFinally (s : State) : Prop :=
  s.status = .halted ∧ s.fault = false ∧ s.runActive = false

/-- The program of `s` halts with these outputs (R178). No fault comes before: FAULT is sticky until LOAD,
and `Reaches` takes no LOAD (R214). -/
def HaltsWith (s : State) (outputs : List Word) : Prop :=
  ∃ t, Reaches s t ∧ HaltedFinally t ∧ t.outq = outputs

/-- A RUN in progress that never returns (R13, R153): an infinite execution, not a stop. -/
def Hangs (s : State) : Prop := ∀ t, Reaches s t → t.runActive = true

end Sys2Proof.Machine
end

