-- ==== Sys2Proof/Certificates/Slice0/Obligations.lean ====
section
/-! DEFINITION. The statements for the provers. A docstring names the spec's decision (D<n>) or the log entry a statement rests on where it rests on one. -/

open Sys2Proof Sys2Proof.Machine

/-! ### Reset and the step -/

/-- The state right after reset (10_state.md section 8), read through `Memory.read` and the codes. The
latch's zeros are decision D8. -/
def Obligations.ResetValues : Prop :=
  State.reset.ip = 0 ∧ State.reset.rb = 0 ∧ State.reset.status = .running ∧
  (∀ a, State.reset.mem.read a = 0) ∧ State.reset.len = 0 ∧
  State.reset.inq = [] ∧ State.reset.outq = [] ∧
  State.reset.fault = false ∧ State.reset.fcause.code = 0 ∧ State.reset.fip = 0 ∧ State.reset.finfo = 0 ∧
  State.reset.runActive = false

/-- The state after reset meets the invariant. -/
def Obligations.ResetMeetsInvariant : Prop := Inv State.reset

/-- Every step keeps the invariant: canonical memory, a coherent latch, and, while FAULT = 0, no cell
held at or beyond LEN or MEM_LIMIT, an empty INQ while Yielded, both queues within capacity. -/
def Obligations.StepKeepsInvariant : Prop :=
  ∀ s t : State, Inv s → step s = .next t → Inv t

/-- A step of CORE whose instruction word decodes to `i` is exactly `exec i`, after the fetch has
grown the hidden length. -/
def Obligations.StepRunsDecodedInstruction : Prop :=
  ∀ (s : State) (i : Instr), CoreMoves s → validAddr s.cfg s.ip = true →
    decode (cellAt s s.ip) = .ok i → step s = exec i (touch s s.ip.toNat)

/-- No instruction ends in a fault or refusal outcome: each answers a next state (faults are taken,
decision D8). -/
def Obligations.EveryInstructionAnswersNext : Prop :=
  ∀ (i : Instr) (s : State), ∃ t, exec i s = .next t

/-- An instruction step happens only inside a RUN with STATUS = Running and FAULT = 0; a RUN in
any other condition returns and, without a fault, changes nothing else; without a RUN and without a
command there is no next state; a command other than LOAD leaves IP and RB alone. That the return of a
RUN is a step of its own, and that an empty list of commands stops the model, is log entry 2. -/
def Obligations.CoreStepsOnlyInsideRun : Prop :=
  ∀ s : State,
    (CoreMoves s → step s = coreStep s) ∧
    (s.runActive = true → ¬ CoreMoves s → ∃ t, step s = .next t ∧ t.runActive = false ∧
      (s.fault = false → t = { s with runActive := false })) ∧
    (s.runActive = false → s.pending = [] → ∀ t, step s ≠ .next t) ∧
    (∀ t, s.runActive = false → s.fault = false → ¬ LoadIssued s → step s = .next t → t.ip = s.ip ∧ t.rb = s.rb)

/-! ### Decoding -/

/-- Words of 30_encoding.md section 7 and 95_test_vectors.md section 2.1, one of every operation at
least. -/
def Obligations.SampleWordsDecode : Prop :=
  decode 1 = .ok (.add .positional .positional .positional) ∧
  decode 1002 = .ok (.mul .positional .immediate .positional) ∧
  decode 21202 = .ok (.mul .relative .immediate .relative) ∧
  decode 203 = .ok (.inp .relative) ∧
  decode 104 = .ok (.out .immediate) ∧
  decode 1105 = .ok (.jt .immediate .immediate) ∧
  decode 2106 = .ok (.jf .immediate .relative) ∧
  decode 207 = .ok (.lt .relative .positional .positional) ∧
  decode 20108 = .ok (.eq .immediate .positional .relative) ∧
  decode 209 = .ok (.arb .relative) ∧
  decode 22299 = .ok .halt ∧
  decode 98301 = .ok (.add .positional .positional .positional) ∧
  decode 33 = .error (.unknownOpcode 33) ∧
  decode (-99) = .error .negativeWord

/-- Every Int64 is one of the ten instructions or illegal, and which: the opcode is the low two digits,
the k-th parameter's mode is that of decimal digit k + 2 (decisions D3, D4, D5). -/
def Obligations.DecodeIsTotalByFields : Prop :=
  ∀ w : Word,
    ((∃ i, decode w = .ok i) ↔ 0 ≤ w.toInt ∧ w.toNat % 100 ∈ opcodes) ∧
    ∀ i, decode w = .ok i →
      opcode i = w.toNat % 100 ∧ i.modes.length = i.paramCount ∧
      ∀ k m, i.modes[k]? = some m → m = modeOfDigit (w.toNat / 10 ^ (k + 2) % 10)

/-- R81: a mode digit 1 is Immediate, 2 is Relative, any other is Positional, in every parameter of
every word that decodes; and no mode digit makes a word fail to decode. -/
def Obligations.ModeDigitsDecode : Prop :=
  EveryModeDigitDecodes ∧
  ∀ (w : Word) (i : Instr) (k : Nat) (m : Mode), decode w = .ok i → i.modes[k]? = some m →
    ModeOf (w.toNat / 10 ^ (k + 2) % 10) m

/-- Digits above the ten-thousands are ignored (decision D4). -/
def Obligations.HighDigitsIgnored : Prop :=
  ∀ w : Word, 0 ≤ w.toInt → decode w = decode (BitVec.ofNat 64 (w.toNat % 100000))

/-- Decode of encode: every instruction comes back from its word, and every assembled instruction,
with any parameter words, from its cells, whatever follows them. For an instruction with an Immediate
destination, which the notation cannot write, the word with mode digit 1 is the model's own choice of
encoding (log entry 25). -/
def Obligations.DecodeOfEncode : Prop :=
  (∀ i : Instr, decode (encode i) = .ok i) ∧
  ∀ (c : Code) (rest : List Word), c.params.length = c.instr.paramCount →
    disassemble (assemble c ++ rest) = .ok (c, rest)

/-- The canonical word is the least of all words that decode to an instruction of the same behaviour,
and a canonical instruction runs as the one it stands for (in all a claim may read, log entry 7). -/
def Obligations.CanonicalWordIsLeast : Prop :=
  ∀ (w : Word) (i : Instr), decode w = .ok i →
    i.canonical.wellFormed = true ∧ decode (encode i.canonical) = .ok i.canonical ∧
    (encode i.canonical).toNat ≤ w.toNat ∧ ∀ s, SameOutcome (exec i.canonical s) (exec i s)

/-! ### Instructions -/

/-- ADD completes whenever its accesses are valid: the sum, wrapped (decision D1), in the destination
cell, IP past four cells, all else as before. -/
def Obligations.AddStoresWrappedSum : Prop :=
  ∀ (mA mB mC : Mode) (s : State), AccessesValid s (.add mA mB mC) →
    ∃ t, exec (.add mA mB mC) s = .next t ∧
      StoresAt s t (destAddr s 3 mC) (wrap64 ((valueOf s 1 mA).toInt + (valueOf s 2 mB).toInt)) ∧
      t.ip = wrap64 (s.ip.toInt + 4) ∧ KeepsAllButIpMem s t

/-- MUL completes whenever its accesses are valid: the signed product, wrapped (decision D1). -/
def Obligations.MulStoresWrappedProduct : Prop :=
  ∀ (mA mB mC : Mode) (s : State), AccessesValid s (.mul mA mB mC) →
    ∃ t, exec (.mul mA mB mC) s = .next t ∧
      StoresAt s t (destAddr s 3 mC) (wrap64 ((valueOf s 1 mA).toInt * (valueOf s 2 mB).toInt)) ∧
      t.ip = wrap64 (s.ip.toInt + 4) ∧ KeepsAllButIpMem s t

/-- Sums and products that lie in Int64 are exact, those that do not are congruent to the exact
result modulo 2^64 (decision D1), in the destination cell of ADD and MUL and in RB after ARB. -/
def Obligations.ArithmeticExactOrCongruent : Prop :=
  (∀ (mA mB mC : Mode) (s t : State), AccessesValid s (.add mA mB mC) → exec (.add mA mB mC) s = .next t →
    let exact := (valueOf s 1 mA).toInt + (valueOf s 2 mB).toInt
    let result := (t.mem.read (destAddr s 3 mC).toNat).toInt
    (-2 ^ 63 ≤ exact ∧ exact < 2 ^ 63 → result = exact) ∧ (2 ^ 64 : Int) ∣ result - exact) ∧
  (∀ (mA mB mC : Mode) (s t : State), AccessesValid s (.mul mA mB mC) → exec (.mul mA mB mC) s = .next t →
    let exact := (valueOf s 1 mA).toInt * (valueOf s 2 mB).toInt
    let result := (t.mem.read (destAddr s 3 mC).toNat).toInt
    (-2 ^ 63 ≤ exact ∧ exact < 2 ^ 63 → result = exact) ∧ (2 ^ 64 : Int) ∣ result - exact) ∧
  (∀ (mA : Mode) (s t : State), AccessesValid s (.arb mA) → exec (.arb mA) s = .next t →
    let exact := s.rb.toInt + (valueOf s 1 mA).toInt
    (-2 ^ 63 ≤ exact ∧ exact < 2 ^ 63 → t.rb.toInt = exact) ∧ (2 ^ 64 : Int) ∣ t.rb.toInt - exact)

/-- LT: its encoding, result, IP (wrapping by decision D1) and frame, and its exceptions (decisions D2, D8, D19). -/
def Obligations.LtStoresSignedComparison : Prop :=
  EncodedAs 7 .lt ∧
  ∀ (mA mB mC : Mode) (s : State),
    (AccessesValid s (.lt mA mB mC) →
      ∃ t, exec (.lt mA mB mC) s = .next t ∧
        StoresAt s t (destAddr s 3 mC) (if (valueOf s 1 mA).toInt < (valueOf s 2 mB).toInt then 1 else 0) ∧
        t.ip = wrap64 (s.ip.toInt + 4) ∧ KeepsAllButIpMem s t) ∧
    FaultsFirst s (.lt mA mB mC)

/-- EQ: its encoding, result, IP (wrapping by decision D1) and frame, and its exceptions (decisions D2, D8, D19). -/
def Obligations.EqStoresEquality : Prop :=
  EncodedAs 8 .eq ∧
  ∀ (mA mB mC : Mode) (s : State),
    (AccessesValid s (.eq mA mB mC) →
      ∃ t, exec (.eq mA mB mC) s = .next t ∧
        StoresAt s t (destAddr s 3 mC) (if (valueOf s 1 mA).toInt = (valueOf s 2 mB).toInt then 1 else 0) ∧
        t.ip = wrap64 (s.ip.toInt + 4) ∧ KeepsAllButIpMem s t) ∧
    FaultsFirst s (.eq mA mB mC)

/-- IN: its encoding; on an empty INQ STATUS is Yielded and nothing else changes (tested first by
decision D19); otherwise the oldest value is stored and removed and IP is past two cells (decision
D1); its exceptions (decisions D2, D8). -/
def Obligations.InputStoresOldestOrYields : Prop :=
  EncodedAs 3 (fun mA _ _ => .inp mA) ∧
  ∀ (mA : Mode) (s : State),
    (s.inq = [] → exec (.inp mA) s = .next { s with status := .yielded }) ∧
    (∀ v rest, s.inq = v :: rest → AccessesValid s (.inp mA) →
      ∃ t, exec (.inp mA) s = .next t ∧ StoresAt s t (destAddr s 1 mA) v ∧ t.inq = rest ∧
        t.ip = wrap64 (s.ip.toInt + 2) ∧ KeepsAllButIpMemInq s t) ∧
    FaultsFirst s (.inp mA)

/-- OUT: its encoding; the value is appended and IP is past two cells (decision D1); QueueOverflow on a
full buffer when OUTQ_CAP is set (decision D15); AddressFault before it (decisions D2, D8, D19). -/
def Obligations.OutputAppendsOrOverflows : Prop :=
  EncodedAs 4 (fun mA _ _ => .out mA) ∧
  ∀ (mA : Mode) (s : State),
    (AccessesValid s (.out mA) → s.cfg.outqCap ≠ some s.outq.length →
      ∃ t, exec (.out mA) s = .next t ∧ t.outq = s.outq ++ [valueOf s 1 mA] ∧
        t.ip = wrap64 (s.ip.toInt + 2) ∧ KeepsAllButIpOutq s t ∧ KeepsCells s t) ∧
    (AccessesValid s (.out mA) → s.cfg.outqCap = some s.outq.length →
      ∃ t, exec (.out mA) s = .next t ∧ Latched s t .queueOverflow 0) ∧
    FaultsFirst s (.out mA)

/-- JT completes whenever its accesses are valid: IP is the second value, unchecked (decision D18), if
the first is not 0, and past three cells (wrapping by decision D1) otherwise; all else as before. -/
def Obligations.JumpIfTrueSetsIp : Prop :=
  ∀ (mA mB : Mode) (s : State), AccessesValid s (.jt mA mB) →
    ∃ t, exec (.jt mA mB) s = .next t ∧
      t.ip = (if valueOf s 1 mA ≠ 0 then valueOf s 2 mB else wrap64 (s.ip.toInt + 3)) ∧
      KeepsAllButIp s t ∧ KeepsCells s t

/-- JF completes whenever its accesses are valid, with the opposite test (decisions D1, D18 as for JT). -/
def Obligations.JumpIfFalseSetsIp : Prop :=
  ∀ (mA mB : Mode) (s : State), AccessesValid s (.jf mA mB) →
    ∃ t, exec (.jf mA mB) s = .next t ∧
      t.ip = (if valueOf s 1 mA = 0 then valueOf s 2 mB else wrap64 (s.ip.toInt + 3)) ∧
      KeepsAllButIp s t ∧ KeepsCells s t

/-- ARB completes whenever its accesses are valid: the value, read with the old RB, added to RB,
wrapped (decision D1), IP past two cells, all else as before. -/
def Obligations.ArbAddsToBase : Prop :=
  ∀ (mA : Mode) (s : State), AccessesValid s (.arb mA) →
    ∃ t, exec (.arb mA) s = .next t ∧
      t.rb = wrap64 (s.rb.toInt + (valueOf s 1 mA).toInt) ∧
      t.ip = wrap64 (s.ip.toInt + 2) ∧ KeepsAllButIpRb s t ∧ KeepsCells s t

/-- HALT always completes: STATUS is Halted, IP past one cell (decision D9), nothing else changes. -/
def Obligations.HaltSetsHalted : Prop :=
  ∀ s : State, exec .halt s = .next { s with status := .halted, ip := wrap64 (s.ip.toInt + 1) }

/-- Mode digit 1 on a destination does what mode 0 does, in all a claim may read (log entry 7), and where
the instruction completes it has stored its value (sums and products wrapped by decision D1) in the
cell the parameter word names, and nowhere else. -/
def Obligations.ImmediateDestinationIsPositional : Prop :=
  ∀ (mA mB : Mode) (s : State),
    (SameOutcome (exec (.add mA mB .immediate) s) (exec (.add mA mB .positional) s) ∧
      SameOutcome (exec (.mul mA mB .immediate) s) (exec (.mul mA mB .positional) s) ∧
      SameOutcome (exec (.lt mA mB .immediate) s) (exec (.lt mA mB .positional) s) ∧
      SameOutcome (exec (.eq mA mB .immediate) s) (exec (.eq mA mB .positional) s) ∧
      SameOutcome (exec (.inp .immediate) s) (exec (.inp .positional) s)) ∧
    ∀ (i : Instr) (v : Word),
      i ∈ [.add mA mB .immediate, .mul mA mB .immediate, .lt mA mB .immediate, .eq mA mB .immediate, .inp .immediate] →
      AccessesValid s i → storedValue s i = some v →
      ∃ t, exec i s = .next t ∧ StoresAt s t (cellAt s (paramCell s i.paramCount)) v

/-- An instruction that does not jump, yield or fault leaves IP at `wrap64(IP + 1 + n)`, n the number of
its parameters: 4, 2, 3 and 1 cells on, by its opcode. The wrap is decision D1; that HALT advances
too, which nothing can observe, is decision D9 (log entry 12). -/
def Obligations.NormalAdvance : Prop :=
  ∀ (i : Instr) (s t : State), exec i s = .next t → t.fault = false →
    (∀ m, i = .inp m → s.inq ≠ []) →
    (∀ mA mB, i = .jt mA mB → valueOf s 1 mA = 0) →
    (∀ mA mB, i = .jf mA mB → valueOf s 1 mA ≠ 0) →
    t.ip = wrap64 (s.ip.toInt + 1 + i.modes.length) ∧
    i.modes.length = (if opcode i ∈ [1, 2, 7, 8] then 3 else if opcode i ∈ [5, 6] then 2
      else if opcode i ∈ [3, 4, 9] then 1 else 0)

/-- Only the five storing instructions write memory, and of memory only their destination cell. -/
def Obligations.MemoryWrittenOnlyAtDestination : Prop :=
  ∀ (i : Instr) (s t : State), exec i s = .next t → t.fault = false →
    (i.destMode = none → KeepsCells s t) ∧
    ∀ m, i.destMode = some m →
      ∀ a, a ≠ (destAddr s i.paramCount m).toNat → t.mem.read a = s.mem.read a

/-- RB enters only Relative-mode addresses: an instruction without a Relative parameter, ARB apart,
does the same with any other RB and leaves that RB alone, or takes the same fault with any other RB
(of the faulted machine only the latch is claimed, decision D8, log entry 7). -/
def Obligations.BaseOnlyInRelativeMode : Prop :=
  ∀ (i : Instr) (s t : State) (r : Word), (∀ m ∈ i.modes, m ≠ .relative) → (∀ m, i ≠ .arb m) →
    exec i s = .next t →
    (t.fault = false → exec i { s with rb := r } = .next { t with rb := r }) ∧
    (t.fault = true → ∃ u, exec i { s with rb := r } = .next u ∧
      u.fault = true ∧ u.fcause = t.fcause ∧ u.fip = t.fip ∧ u.finfo = t.finfo)

/-- What ADD, MUL, IN, LT or EQ stores over the next instruction word (wrapped by decision D1) is what
the next step fetches: it runs it, or raises IllegalInstruction of it (decision D8). -/
def Obligations.StoreSeenByNextFetch : Prop :=
  ∀ (i : Instr) (m : Mode) (v : Word) (s : State), CoreMoves s → AccessesValid s i →
    i.destMode = some m → storedValue s i = some v →
    destAddr s i.paramCount m = wrap64 (s.ip.toInt + 1 + i.paramCount) →
    ∃ t, exec i s = .next t ∧ CoreMoves t ∧ t.ip = wrap64 (s.ip.toInt + 1 + i.paramCount) ∧ cellAt t t.ip = v ∧
      (∀ j, decode v = .ok j → step t = exec j (touch t t.ip.toNat)) ∧
      ∀ e, decode v = .error e → ∃ u, step t = .next u ∧ Latched t u .illegalInstruction v

/-- The queues' order: INQ loses only its head and only to IN, OUTQ gains only at its end and only
from OUT, and only the value OUT read. -/
def Obligations.QueueOrder : Prop :=
  ∀ (i : Instr) (s t : State), exec i s = .next t → t.fault = false →
    (t.inq = s.inq ∨ ∃ m v, i = .inp m ∧ s.inq = v :: t.inq ∧ t.mem.read (destAddr s 1 m).toNat = v) ∧
    (t.outq = s.outq ∨ ∃ m, i = .out m ∧ t.outq = s.outq ++ [valueOf s 1 m])

/-- An instruction that did not fault has grown the tape access by access: an access at or beyond the
length raises it to at least `2*a + 1`, any other leaves it (decision D7; of LEN only the bound is
claimed, log entry 3). So the length has not shrunk and covers every address accessed. A whole step
grows it by its fetch first. -/
def Obligations.GrowthCoversAccesses : Prop :=
  (∀ (i : Instr) (s t : State), exec i s = .next t → t.fault = false →
    GrowsTo s.len (accesses s i) t.len ∧ LenCovers s t (accesses s i)) ∧
  (∀ (i : Instr) (s t : State), CoreMoves s → decode (cellAt s s.ip) = .ok i → step s = .next t →
    t.fault = false → GrowsTo s.len (s.ip :: accesses s i) t.len)

/-! ### Faults -/

/-- The first invalid address in the order of accesses is the one reported (decisions D2, D19), for
every instruction. -/
def Obligations.FirstInvalidAccessFaults : Prop :=
  ∀ (i : Instr) (s : State), FaultsFirst s i

/-- A fetch at an invalid IP raises AddressFault(IP) (decisions D2, D6). -/
def Obligations.FetchFaults : Prop :=
  ∀ s : State, CoreMoves s → validAddr s.cfg s.ip = false →
    ∃ t, step s = .next t ∧ Latched s t .addressFault s.ip

/-- The words that raise IllegalInstruction: negative ones (decision D3) and those whose low two
digits are no opcode. The latch holds the word. -/
def Obligations.IllegalWordFaults : Prop :=
  ∀ s : State, CoreMoves s → validAddr s.cfg s.ip = true →
    ((cellAt s s.ip).toInt < 0 ∨ (cellAt s s.ip).toNat % 100 ∉ opcodes) →
    ∃ t, step s = .next t ∧ Latched s t .illegalInstruction (cellAt s s.ip)

/-- FAULT is sticky: no step but LOAD clears or changes the latch (decision D8). -/
def Obligations.FaultLatchIsSticky : Prop :=
  ∀ s t : State, s.fault = true → ¬ LoadIssued s → step s = .next t →
    t.fault = true ∧ t.fcause = s.fcause ∧ t.fip = s.fip ∧ t.finfo = s.finfo

/-- On a faulted machine every command but LOAD and READ_STATUS is refused, and READ_STATUS returns
the latch (decision D8). -/
def Obligations.FaultedMachineRefusesCommands : Prop :=
  ∀ (s : State) (c : HostCommand), s.fault = true → HostIssues s c → (∀ image, c ≠ .load image) →
    (c ≠ .readStatus → step s = .refused (.hostCommand .faulted)) ∧
    (c = .readStatus → ∃ t n, step s = .next t ∧
      t.replies = s.replies ++ [.status n 1 s.fcause.code s.fip s.finfo])

/-! ### Whole-machine rules -/

/-- RB changes only by ARB and by LOAD. -/
def Obligations.BaseChangesOnlyByArb : Prop :=
  ∀ s t : State, step s = .next t → t.fault = false → ¬ LoadIssued s → t.rb ≠ s.rb →
    CoreMoves s ∧ ∃ m, decode (cellAt s s.ip) = .ok (.arb m)

/-- The complete list of STATUS changes: LOAD, HALT, a yielding IN, and the host's PUSH_INPUT,
SEED_INPUT (decision D14) or RUN on a Yielded machine. -/
def Obligations.StatusTransitions : Prop :=
  ∀ s t : State, step s = .next t → t.fault = false → t.status ≠ s.status →
    (LoadIssued s ∧ t.status = .running) ∨
    (CoreMoves s ∧ decode (cellAt s s.ip) = .ok .halt ∧ t.status = .halted) ∨
    (CoreMoves s ∧ (∃ m, decode (cellAt s s.ip) = .ok (.inp m)) ∧ s.inq = [] ∧ t.status = .yielded) ∨
    (s.status = .yielded ∧ t.status = .running ∧
      (HostIssues s .run ∨ (∃ v, HostIssues s (.pushInput v)) ∨
        ∃ v values, HostIssues s (.seedInput (v :: values))))

/-- Halted is absorbing: until the next LOAD it stays Halted and without fault, IP, RB and INQ stay,
and a RUN writes no cell. -/
def Obligations.HaltedIsAbsorbing : Prop :=
  ∀ s t : State, s.status = .halted → s.fault = false → ¬ LoadIssued s → step s = .next t →
    t.status = .halted ∧ t.fault = false ∧ t.ip = s.ip ∧ t.rb = s.rb ∧ t.inq = s.inq ∧
    (s.runActive = true ∨ HostIssues s .run → KeepsCells s t)

/-- LEN never decreases until the next LOAD. -/
def Obligations.LenNeverShrinks : Prop :=
  ∀ s t : State, step s = .next t → t.fault = false → ¬ LoadIssued s → s.len ≤ t.len

/-- LEN is unobservable: with any other hidden length, and any other history of growth, a step has
the same outcome but for that length, in all a claim may read (log entry 7). -/
def Obligations.LenIsUnobservable : Prop :=
  ∀ (s : State) (len growths : Nat),
    SameOutcome (forgetOutcome (step { s with len := len, growths := growths })) (forgetOutcome (step s))

/-- No step changes the implementation parameters (log entry 4). -/
def Obligations.ParametersNeverChange : Prop :=
  ∀ s t : State, step s = .next t → t.cfg = s.cfg

/-- What the host can never do but by LOAD: write IP or RB, write a cell other than 0, 1, 2, remove
or reorder entries of INQ, un-halt the machine, touch the fault latch. -/
def Obligations.HostReachIsLimited : Prop :=
  ∀ (s t : State) (c : HostCommand), s.fault = false → HostIssues s c → (∀ image, c ≠ .load image) →
    step s = .next t →
    t.ip = s.ip ∧ t.rb = s.rb ∧ (∀ a, 2 < a → t.mem.read a = s.mem.read a) ∧ s.inq <+: t.inq ∧
    (s.status = .halted → t.status = .halted) ∧
    t.fault = false ∧ t.fcause = s.fcause ∧ t.fip = s.fip ∧ t.finfo = s.finfo

/-! ### Host commands -/

/-- LOAD sets every piece of the machine's state and executes nothing; an image longer than MEM_LIMIT
is refused (decisions D8, D20). Legal in every state. -/
def Obligations.LoadSetsEverything : Prop :=
  ∀ (s : State) (image : List Word) (rest : List HostCommand),
    s.runActive = false → s.pending = .load image :: rest →
    ((∀ limit, s.cfg.memLimit = some limit → image.length ≤ limit) →
      ∃ t, step s = .next t ∧ (∀ a, t.mem.read a = image.getD a 0) ∧ t.len = image.length ∧
        t.ip = 0 ∧ t.rb = 0 ∧ t.status = .running ∧ t.inq = [] ∧ t.outq = [] ∧
        t.fault = false ∧ t.fcause.code = 0 ∧ t.fip = 0 ∧ t.finfo = 0 ∧ t.runActive = false ∧
        t.pending = rest ∧ t.replies = s.replies ∧ t.cfg = s.cfg) ∧
    (∀ limit, s.cfg.memLimit = some limit → limit < image.length →
      step s = .refused (.hostCommand .imageTooLong))

/-- PUSH_INPUT is dropped on a Halted machine (also where INQ is full: log entry 14), appended
otherwise, makes a Yielded machine Running, executes nothing, and is refused when INQ_CAP is set and
INQ is full (decision D20). -/
def Obligations.PushInputByStatus : Prop :=
  ∀ (s : State) (v : Word) (rest : List HostCommand),
    s.runActive = false → s.fault = false → s.pending = .pushInput v :: rest →
    (s.status = .halted → step s = .next { s with pending := rest }) ∧
    (s.status ≠ .halted → (∀ cap, s.cfg.inqCap = some cap → s.inq.length < cap) →
      step s = .next { s with pending := rest, inq := s.inq ++ [v], status := .running }) ∧
    (s.status ≠ .halted → (∃ cap, s.cfg.inqCap = some cap ∧ cap ≤ s.inq.length) →
      step s = .refused (.hostCommand .inputQueueFull))

/-- SEED_INPUT pushes each value in order (decision D14); on a Halted machine every value is dropped, also
beyond INQ_CAP (log entry 14); on any other it is refused as a whole when that would exceed INQ_CAP
(decision D20, log entry 14). -/
def Obligations.SeedInputPushesInOrder : Prop :=
  ∀ (s : State) (values : List Word) (rest : List HostCommand),
    s.runActive = false → s.fault = false → s.pending = .seedInput values :: rest →
    (s.status = .halted → step s = .next { s with pending := rest }) ∧
    (s.status ≠ .halted → (∀ cap, s.cfg.inqCap = some cap → s.inq.length + values.length ≤ cap) →
      step s = .next { s with
        pending := rest, inq := s.inq ++ values
        status := if values = [] then s.status else .running }) ∧
    (s.status ≠ .halted → (∃ cap, s.cfg.inqCap = some cap ∧ cap < s.inq.length + values.length) →
      step s = .refused (.hostCommand .inputQueueFull))

/-- CFG_CELL0 writes cell 0, CFG_NOUN_VERB cells 1 and 2, and nothing else but the hidden length;
each is refused when MEM_LIMIT excludes a cell it writes (decisions D14, D20). -/
def Obligations.ConfigCommandsWriteCells : Prop :=
  (∀ (s : State) (v : Word) (rest : List HostCommand),
    s.runActive = false → s.fault = false → s.pending = .cfgCell0 v :: rest →
    ((∀ limit, s.cfg.memLimit = some limit → 1 ≤ limit) →
      ∃ t, step s = .next t ∧ (∀ a, t.mem.read a = if a = 0 then v else s.mem.read a) ∧
        t = { s with pending := rest, mem := t.mem, len := t.len, growths := t.growths }) ∧
    ((∃ limit, s.cfg.memLimit = some limit ∧ limit < 1) →
      step s = .refused (.hostCommand .cellsBeyondLimit))) ∧
  (∀ (s : State) (noun verb : Word) (rest : List HostCommand),
    s.runActive = false → s.fault = false → s.pending = .cfgNounVerb noun verb :: rest →
    ((∀ limit, s.cfg.memLimit = some limit → 3 ≤ limit) →
      ∃ t, step s = .next t ∧
        (∀ a, t.mem.read a = if a = 1 then noun else if a = 2 then verb else s.mem.read a) ∧
        t = { s with pending := rest, mem := t.mem, len := t.len, growths := t.growths }) ∧
    ((∃ limit, s.cfg.memLimit = some limit ∧ limit < 3) →
      step s = .refused (.hostCommand .cellsBeyondLimit)))

/-- RUN clears OUTQ; a Halted machine takes no step and stays Halted (decision D10), any other is
Running and its RUN is in progress. -/
def Obligations.RunStarts : Prop :=
  ∀ (s : State) (rest : List HostCommand), s.runActive = false → s.fault = false → s.pending = .run :: rest →
    (s.status = .halted → step s = .next { s with pending := rest, outq := [] }) ∧
    (s.status ≠ .halted →
      step s = .next { s with pending := rest, outq := [], status := .running, runActive := true })

/-- The read commands return STATUS and the latch, OUTQ, one cell, and change nothing else but the
hidden length (decisions D8, D11, D12, D20); PEEK is refused at an address that is not valid. -/
def Obligations.ReadCommandsAnswer : Prop :=
  ∀ (s : State) (c : HostCommand) (rest : List HostCommand),
    s.runActive = false → s.fault = false → s.pending = c :: rest →
    (c = .readStatus → step s = .next { s with
      pending := rest, replies := s.replies ++ [.status
        (match s.status with | .running => 0 | .yielded => 1 | .halted => 2) 0 s.fcause.code s.fip s.finfo] }) ∧
    (c = .readOutput → step s = .next { s with pending := rest, replies := s.replies ++ [.output s.outq] }) ∧
    (∀ a : Word, c = .peek a → validAddr s.cfg a = true → ∃ t, step s = .next t ∧
      t = { s with
        pending := rest, replies := s.replies ++ [.cell (s.mem.read a.toNat)]
        len := t.len, growths := t.growths }) ∧
    (∀ a : Word, c = .peek a → a.toInt < 0 → step s = .refused (.hostCommand .negativeAddress)) ∧
    (∀ (a : Word) (limit : Nat), c = .peek a → 0 ≤ a.toInt → s.cfg.memLimit = some limit → (limit : Int) ≤ a.toInt →
      step s = .refused (.hostCommand .addressBeyondLimit))

/-- Resume: PUSH_INPUT and RUN on a Yielded machine put it in a RUN at the unchanged IP, with the new
value queued and OUTQ cleared; the next step fetches the cell at IP afresh. -/
def Obligations.YieldResumes : Prop :=
  ∀ (s : State) (v : Word) (rest : List HostCommand) (i : Instr),
    s.runActive = false → s.fault = false → s.status = .yielded → s.pending = .pushInput v :: .run :: rest →
    (∀ cap, s.cfg.inqCap = some cap → s.inq.length < cap) →
    validAddr s.cfg s.ip = true → decode (cellAt s s.ip) = .ok i →
    ∃ t u, step s = .next t ∧ step t = .next u ∧
      u = { s with pending := rest, inq := s.inq ++ [v], status := .running, outq := [], runActive := true } ∧
      step u = exec i (touch u s.ip.toNat)

/-! ### More of decoding, and runs -/

/-- A run that ends in the final state of a halted program has not faulted on the way (decision D8):
what `HaltsWith` says is never said of a program that went wrong. -/
def Obligations.FinalRunNeverFaulted : Prop :=
  ∀ s t u : State, Reaches s t → Reaches t u → HaltedFinally u → t.fault = false

/-- R82: instructions of 1, 2 and 3 parameters decode, with every mode digit; each parameter's mode is
R81's of its own digit; equal digits give equal modes, for whichever parameters, in whichever words and
with whichever opcodes; the opcode alone says how many parameters there are and whether the last is a
destination. -/
def Obligations.ModesReadIndependently : Prop :=
  (∀ n ∈ [1, 2, 3], ∃ w i, decode w = .ok i ∧ i.modes.length = n) ∧ EveryModeDigitDecodes ∧
  ∀ (w w' : Word) (i i' : Instr), decode w = .ok i → decode w' = .ok i' →
    (∀ k m, i.modes[k]? = some m → ModeOf (w.toNat / 10 ^ (k + 2) % 10) m) ∧
    (∀ k k' m m', w.toNat / 10 ^ (k + 2) % 10 = w'.toNat / 10 ^ (k' + 2) % 10 →
      i.modes[k]? = some m → i'.modes[k']? = some m' → m = m') ∧
    (w.toNat % 100 = w'.toNat % 100 →
      i.modes.length = i'.modes.length ∧ i.destMode.isSome = i'.destMode.isSome)

/-- R84: the length is 4, 3, 2 or 1 cells by the opcode alone, whatever the modes, and instructions follow
each other without padding: the cells read are the word and that many parameter words, the rest is
what comes next. -/
def Obligations.LengthByOpcodeAlone : Prop :=
  ∀ (w : Word) (i : Instr), decode w = .ok i →
    i.length = (if w.toNat % 100 ∈ [1, 2, 7, 8] then 4 else if w.toNat % 100 ∈ [5, 6] then 3
      else if w.toNat % 100 ∈ [3, 4, 9] then 2 else 1) ∧
    (∀ cells : List Word, i.length ≤ 1 + cells.length → ∃ c rest, disassemble (w :: cells) = .ok (c, rest) ∧
      c.instr = i ∧ 1 + c.params.length = i.length ∧ c.params ++ rest = cells)
end

