-- ==== Sys2Proof/Laws/Memory.lean ====
section
/-! SUPPORT. The laws of the tape: reads after writes and images, and the canonical form. -/

namespace Sys2Proof.Machine

@[simp] theorem Memory.read_nil (a : Nat) : Memory.read [] a = 0 := rfl

theorem Memory.read_cons (k : Nat) (v : Word) (m : Memory) (a : Nat) :
    Memory.read ((k, v) :: m) a = if a = k then v else m.read a := rfl

/-- An address no entry names reads as 0. -/
theorem Memory.read_of_not_listed {m : Memory} {a : Nat} (h : ∀ x ∈ m, x.1 ≠ a) : m.read a = 0 := by
  induction m with
  | nil => rfl
  | cons x m ih =>
    obtain ⟨k, v⟩ := x
    have hk : a ≠ k := fun e => h (k, v) (by simp) e.symm
    rw [Memory.read_cons, if_neg hk, ih fun x hx => h x (List.mem_cons_of_mem _ hx)]

theorem Memory.read_filter (m : Memory) (a b : Nat) :
    Memory.read (m.filter fun x => x.1 != a) b = if b = a then 0 else m.read b := by
  induction m with
  | nil => simp
  | cons x m ih =>
    obtain ⟨k, v⟩ := x
    by_cases hk : k = a
    · subst hk
      simp only [List.filter_cons, bne_self_eq_false, Memory.read_cons, ih, Bool.false_eq_true, if_false]
      split <;> rfl
    · have : ((k, v).1 != a) = true := by simpa using hk
      simp only [List.filter_cons, this, if_true, Memory.read_cons, ih]
      by_cases hb : b = k
      · simp [hb, hk]
      · simp [hb]

theorem Memory.read_insert {m : Memory} {a : Nat} (h : ∀ x ∈ m, x.1 ≠ a) (v : Word) (b : Nat) :
    Memory.read (m.insert a v) b = if b = a then v else m.read b := by
  induction m with
  | nil => rfl
  | cons x m ih =>
    obtain ⟨k, w⟩ := x
    have hk : k ≠ a := h (k, w) (by simp)
    have ih := ih fun x hx => h x (List.mem_cons_of_mem _ hx)
    unfold Memory.insert
    split
    · rfl
    · rw [Memory.read_cons, ih, Memory.read_cons]
      by_cases hb : b = k
      · simp [hb, hk]
      · simp [hb]

/-- A write is read back, and leaves every other cell alone (R51, R54). -/
theorem Memory.read_write (m : Memory) (a : Nat) (v : Word) (b : Nat) :
    (m.write a v).read b = if b = a then v else m.read b := by
  have hne : ∀ x ∈ m.filter (fun x => x.1 != a), x.1 ≠ a := by
    intro x hx
    simpa using (List.mem_filter.mp hx).2
  unfold Memory.write
  split
  · next hv => simp [Memory.read_filter, hv, Memory.unlisted]
  · rw [Memory.read_insert hne, Memory.read_filter]
    split <;> rfl

theorem Memory.read_ofImageFrom (image : List Word) (k a : Nat) :
    (Memory.ofImageFrom k image).read a = if a < k then 0 else image.getD (a - k) 0 := by
  induction image generalizing k with
  | nil => simp [Memory.ofImageFrom]
  | cons v rest ih =>
    have key : (if a < k + 1 then 0 else rest.getD (a - (k + 1)) 0) =
        if a < k then 0 else if a = k then (0 : Word) else (v :: rest).getD (a - k) 0 := by
      rcases lt_trichotomy a k with h | h | h
      · simp [h, Nat.lt_succ_of_lt h]
      · simp [h]
      · have e : a - k = a - (k + 1) + 1 := by omega
        simp [Nat.not_lt.mpr h.le, Nat.ne_of_gt h, Nat.not_lt.mpr (Nat.succ_le_of_lt h), e]
    unfold Memory.ofImageFrom
    split
    · next hv =>
      rw [ih, key]
      by_cases hk : a = k
      · simp [hk, hv, Memory.unlisted]
      · simp [hk]
    · rw [Memory.read_cons, ih, key]
      by_cases hk : a = k
      · simp [hk]
      · simp [hk]

theorem Memory.mem_insert {m : Memory} {a : Nat} {v : Word} {x : Nat × Word}
    (h : x ∈ m.insert a v) : x = (a, v) ∨ x ∈ m := by
  induction m with
  | nil => simpa [Memory.insert] using h
  | cons y m ih =>
    obtain ⟨k, w⟩ := y
    unfold Memory.insert at h
    split at h
    · simpa using h
    · rcases List.mem_cons.mp h with h | h
      · exact .inr (by simp [h])
      · exact (ih h).imp_right (List.mem_cons_of_mem _)

/-- An entry after a write was there before or is the one written. -/
theorem Memory.mem_write {m : Memory} {a : Nat} {v : Word} {x : Nat × Word}
    (h : x ∈ m.write a v) : x.1 = a ∨ x ∈ m := by
  unfold Memory.write at h
  split at h
  · exact .inr (List.mem_filter.mp h).1
  · rcases Memory.mem_insert h with h | h
    · exact .inl (by rw [h])
    · exact .inr (List.mem_filter.mp h).1

/-- Every entry of an image lies within it. -/
theorem Memory.mem_ofImageFrom {image : List Word} {k : Nat} {x : Nat × Word}
    (h : x ∈ Memory.ofImageFrom k image) : k ≤ x.1 ∧ x.1 < k + image.length := by
  induction image generalizing k with
  | nil => simp [Memory.ofImageFrom] at h
  | cons v rest ih =>
    unfold Memory.ofImageFrom at h
    have later : x ∈ Memory.ofImageFrom (k + 1) rest → k ≤ x.1 ∧ x.1 < k + (v :: rest).length := by
      intro h
      have := ih h
      simp only [List.length_cons]
      omega
    split at h
    · exact later h
    · rcases List.mem_cons.mp h with h | h
      · subst h
        simp
      · exact later h

theorem Memory.insert_wf {m : Memory} (hm : Memory.wf m) {a : Nat} {v : Word} (hv : v ≠ 0)
    (h : ∀ x ∈ m, x.1 ≠ a) : Memory.wf (m.insert a v) := by
  induction m with
  | nil => simpa [Memory.insert, Memory.wf] using hv
  | cons y m ih =>
    obtain ⟨k, w⟩ := y
    obtain ⟨hp, hz⟩ := hm
    rw [List.pairwise_cons] at hp
    have hk : k ≠ a := h (k, w) (by simp)
    unfold Memory.insert
    split
    · next hak =>
      refine ⟨List.pairwise_cons.mpr ⟨?_, List.pairwise_cons.mpr hp⟩, ?_⟩
      · intro x hx
        rcases List.mem_cons.mp hx with hx | hx
        · simpa [hx] using hak
        · exact lt_trans hak (hp.1 x hx)
      · intro x hx
        rcases List.mem_cons.mp hx with hx | hx
        · simpa [hx] using hv
        · exact hz x hx
    · next hak =>
      have ih := ih ⟨hp.2, fun x hx => hz x (List.mem_cons_of_mem _ hx)⟩
        fun x hx => h x (List.mem_cons_of_mem _ hx)
      refine ⟨List.pairwise_cons.mpr ⟨?_, ih.1⟩, ?_⟩
      · intro x hx
        rcases Memory.mem_insert hx with hx | hx
        · subst hx
          simp only
          omega
        · exact hp.1 x hx
      · intro x hx
        rcases List.mem_cons.mp hx with hx | hx
        · exact hz x (by simp [hx])
        · exact ih.2 x hx

/-- Every write keeps the canonical form. -/
theorem Memory.write_wf {m : Memory} (hm : Memory.wf m) (a : Nat) (v : Word) :
    Memory.wf (m.write a v) := by
  have hf : Memory.wf (m.filter fun x => x.1 != a) :=
    ⟨hm.1.filter _, fun x hx => hm.2 x (List.mem_filter.mp hx).1⟩
  unfold Memory.write
  split
  · exact hf
  · next hv =>
    refine Memory.insert_wf hf hv fun x hx => ?_
    simpa using (List.mem_filter.mp hx).2

/-- The memory of every image has the canonical form. -/
theorem Memory.ofImageFrom_wf (image : List Word) (k : Nat) :
    Memory.wf (Memory.ofImageFrom k image) := by
  induction image generalizing k with
  | nil => simp [Memory.ofImageFrom, Memory.wf]
  | cons v rest ih =>
    unfold Memory.ofImageFrom
    split
    · exact ih (k + 1)
    · next hv =>
      refine ⟨List.pairwise_cons.mpr ⟨fun x hx => ?_, (ih (k + 1)).1⟩, fun x hx => ?_⟩
      · have := (Memory.mem_ofImageFrom hx).1
        simp only
        omega
      · rcases List.mem_cons.mp hx with hx | hx
        · subst hx
          exact hv
        · exact (ih (k + 1)).2 x hx

end Sys2Proof.Machine
end

