-- ==== Sys2Proof/Laws/State.lean ====
section
/-! SUPPORT. One lemma per field per update of State, each true by rfl. -/

namespace Sys2Proof.Machine

/-! ### touch -/

@[simp] theorem touch_ip (s : State) (a : Nat) : (touch s a).ip = s.ip := rfl
@[simp] theorem touch_rb (s : State) (a : Nat) : (touch s a).rb = s.rb := rfl
@[simp] theorem touch_status (s : State) (a : Nat) : (touch s a).status = s.status := rfl
@[simp] theorem touch_mem (s : State) (a : Nat) : (touch s a).mem = s.mem := rfl
@[simp] theorem touch_len (s : State) (a : Nat) : (touch s a).len = grownLen s.len s.growths a := rfl
@[simp] theorem touch_inq (s : State) (a : Nat) : (touch s a).inq = s.inq := rfl
@[simp] theorem touch_outq (s : State) (a : Nat) : (touch s a).outq = s.outq := rfl
@[simp] theorem touch_fault (s : State) (a : Nat) : (touch s a).fault = s.fault := rfl
@[simp] theorem touch_fcause (s : State) (a : Nat) : (touch s a).fcause = s.fcause := rfl
@[simp] theorem touch_fip (s : State) (a : Nat) : (touch s a).fip = s.fip := rfl
@[simp] theorem touch_finfo (s : State) (a : Nat) : (touch s a).finfo = s.finfo := rfl
@[simp] theorem touch_runActive (s : State) (a : Nat) : (touch s a).runActive = s.runActive := rfl
@[simp] theorem touch_cfg (s : State) (a : Nat) : (touch s a).cfg = s.cfg := rfl
@[simp] theorem touch_growths (s : State) (a : Nat) : (touch s a).growths = if a < s.len then s.growths else s.growths + 1 := rfl
@[simp] theorem touch_pending (s : State) (a : Nat) : (touch s a).pending = s.pending := rfl
@[simp] theorem touch_replies (s : State) (a : Nat) : (touch s a).replies = s.replies := rfl

/-! ### putCell -/

@[simp] theorem putCell_ip (s : State) (a : Nat) (v : Word) : (putCell s a v).ip = s.ip := rfl
@[simp] theorem putCell_rb (s : State) (a : Nat) (v : Word) : (putCell s a v).rb = s.rb := rfl
@[simp] theorem putCell_status (s : State) (a : Nat) (v : Word) : (putCell s a v).status = s.status := rfl
@[simp] theorem putCell_mem (s : State) (a : Nat) (v : Word) : (putCell s a v).mem = s.mem.write a v := rfl
@[simp] theorem putCell_len (s : State) (a : Nat) (v : Word) : (putCell s a v).len = grownLen s.len s.growths a := rfl
@[simp] theorem putCell_inq (s : State) (a : Nat) (v : Word) : (putCell s a v).inq = s.inq := rfl
@[simp] theorem putCell_outq (s : State) (a : Nat) (v : Word) : (putCell s a v).outq = s.outq := rfl
@[simp] theorem putCell_fault (s : State) (a : Nat) (v : Word) : (putCell s a v).fault = s.fault := rfl
@[simp] theorem putCell_fcause (s : State) (a : Nat) (v : Word) : (putCell s a v).fcause = s.fcause := rfl
@[simp] theorem putCell_fip (s : State) (a : Nat) (v : Word) : (putCell s a v).fip = s.fip := rfl
@[simp] theorem putCell_finfo (s : State) (a : Nat) (v : Word) : (putCell s a v).finfo = s.finfo := rfl
@[simp] theorem putCell_runActive (s : State) (a : Nat) (v : Word) : (putCell s a v).runActive = s.runActive := rfl
@[simp] theorem putCell_cfg (s : State) (a : Nat) (v : Word) : (putCell s a v).cfg = s.cfg := rfl
@[simp] theorem putCell_growths (s : State) (a : Nat) (v : Word) : (putCell s a v).growths = if a < s.len then s.growths else s.growths + 1 := rfl
@[simp] theorem putCell_pending (s : State) (a : Nat) (v : Word) : (putCell s a v).pending = s.pending := rfl
@[simp] theorem putCell_replies (s : State) (a : Nat) (v : Word) : (putCell s a v).replies = s.replies := rfl

/-! ### raise -/

@[simp] theorem raise_ip (r : Raise) (s : State) : (raise r s).ip = s.ip := rfl
@[simp] theorem raise_rb (r : Raise) (s : State) : (raise r s).rb = s.rb := rfl
@[simp] theorem raise_status (r : Raise) (s : State) : (raise r s).status = s.status := rfl
@[simp] theorem raise_mem (r : Raise) (s : State) : (raise r s).mem = s.mem := rfl
@[simp] theorem raise_len (r : Raise) (s : State) : (raise r s).len = s.len := rfl
@[simp] theorem raise_inq (r : Raise) (s : State) : (raise r s).inq = s.inq := rfl
@[simp] theorem raise_outq (r : Raise) (s : State) : (raise r s).outq = s.outq := rfl
@[simp] theorem raise_fault (r : Raise) (s : State) : (raise r s).fault = true := rfl
@[simp] theorem raise_fcause (r : Raise) (s : State) : (raise r s).fcause = r.cause := rfl
@[simp] theorem raise_fip (r : Raise) (s : State) : (raise r s).fip = s.ip := rfl
@[simp] theorem raise_finfo (r : Raise) (s : State) : (raise r s).finfo = r.info := rfl
@[simp] theorem raise_runActive (r : Raise) (s : State) : (raise r s).runActive = s.runActive := rfl
@[simp] theorem raise_cfg (r : Raise) (s : State) : (raise r s).cfg = s.cfg := rfl
@[simp] theorem raise_growths (r : Raise) (s : State) : (raise r s).growths = s.growths := rfl
@[simp] theorem raise_pending (r : Raise) (s : State) : (raise r s).pending = s.pending := rfl
@[simp] theorem raise_replies (r : Raise) (s : State) : (raise r s).replies = s.replies := rfl

/-! ### advance -/

@[simp] theorem advance_ip (c : Word) (s : State) : (advance c s).ip = nextCell c := rfl
@[simp] theorem advance_rb (c : Word) (s : State) : (advance c s).rb = s.rb := rfl
@[simp] theorem advance_status (c : Word) (s : State) : (advance c s).status = s.status := rfl
@[simp] theorem advance_mem (c : Word) (s : State) : (advance c s).mem = s.mem := rfl
@[simp] theorem advance_len (c : Word) (s : State) : (advance c s).len = s.len := rfl
@[simp] theorem advance_inq (c : Word) (s : State) : (advance c s).inq = s.inq := rfl
@[simp] theorem advance_outq (c : Word) (s : State) : (advance c s).outq = s.outq := rfl
@[simp] theorem advance_fault (c : Word) (s : State) : (advance c s).fault = s.fault := rfl
@[simp] theorem advance_fcause (c : Word) (s : State) : (advance c s).fcause = s.fcause := rfl
@[simp] theorem advance_fip (c : Word) (s : State) : (advance c s).fip = s.fip := rfl
@[simp] theorem advance_finfo (c : Word) (s : State) : (advance c s).finfo = s.finfo := rfl
@[simp] theorem advance_runActive (c : Word) (s : State) : (advance c s).runActive = s.runActive := rfl
@[simp] theorem advance_cfg (c : Word) (s : State) : (advance c s).cfg = s.cfg := rfl
@[simp] theorem advance_growths (c : Word) (s : State) : (advance c s).growths = s.growths := rfl
@[simp] theorem advance_pending (c : Word) (s : State) : (advance c s).pending = s.pending := rfl
@[simp] theorem advance_replies (c : Word) (s : State) : (advance c s).replies = s.replies := rfl

/-! ### endRun -/

@[simp] theorem endRun_ip (s : State) : (endRun s).ip = s.ip := rfl
@[simp] theorem endRun_rb (s : State) : (endRun s).rb = s.rb := rfl
@[simp] theorem endRun_status (s : State) : (endRun s).status = s.status := rfl
@[simp] theorem endRun_mem (s : State) : (endRun s).mem = s.mem := rfl
@[simp] theorem endRun_len (s : State) : (endRun s).len = s.len := rfl
@[simp] theorem endRun_inq (s : State) : (endRun s).inq = s.inq := rfl
@[simp] theorem endRun_outq (s : State) : (endRun s).outq = s.outq := rfl
@[simp] theorem endRun_fault (s : State) : (endRun s).fault = s.fault := rfl
@[simp] theorem endRun_fcause (s : State) : (endRun s).fcause = s.fcause := rfl
@[simp] theorem endRun_fip (s : State) : (endRun s).fip = s.fip := rfl
@[simp] theorem endRun_finfo (s : State) : (endRun s).finfo = s.finfo := rfl
@[simp] theorem endRun_runActive (s : State) : (endRun s).runActive = false := rfl
@[simp] theorem endRun_cfg (s : State) : (endRun s).cfg = s.cfg := rfl
@[simp] theorem endRun_growths (s : State) : (endRun s).growths = s.growths := rfl
@[simp] theorem endRun_pending (s : State) : (endRun s).pending = s.pending := rfl
@[simp] theorem endRun_replies (s : State) : (endRun s).replies = s.replies := rfl

/-! ### loadImage -/

@[simp] theorem loadImage_ip (image : List Word) (s : State) : (loadImage image s).ip = 0 := rfl
@[simp] theorem loadImage_rb (image : List Word) (s : State) : (loadImage image s).rb = 0 := rfl
@[simp] theorem loadImage_status (image : List Word) (s : State) : (loadImage image s).status = .running := rfl
@[simp] theorem loadImage_mem (image : List Word) (s : State) : (loadImage image s).mem = Memory.ofImageFrom 0 image := rfl
@[simp] theorem loadImage_len (image : List Word) (s : State) : (loadImage image s).len = image.length := rfl
@[simp] theorem loadImage_inq (image : List Word) (s : State) : (loadImage image s).inq = [] := rfl
@[simp] theorem loadImage_outq (image : List Word) (s : State) : (loadImage image s).outq = [] := rfl
@[simp] theorem loadImage_fault (image : List Word) (s : State) : (loadImage image s).fault = false := rfl
@[simp] theorem loadImage_fcause (image : List Word) (s : State) : (loadImage image s).fcause = .none := rfl
@[simp] theorem loadImage_fip (image : List Word) (s : State) : (loadImage image s).fip = 0 := rfl
@[simp] theorem loadImage_finfo (image : List Word) (s : State) : (loadImage image s).finfo = 0 := rfl
@[simp] theorem loadImage_runActive (image : List Word) (s : State) : (loadImage image s).runActive = s.runActive := rfl
@[simp] theorem loadImage_cfg (image : List Word) (s : State) : (loadImage image s).cfg = s.cfg := rfl
@[simp] theorem loadImage_growths (image : List Word) (s : State) : (loadImage image s).growths = s.growths := rfl
@[simp] theorem loadImage_pending (image : List Word) (s : State) : (loadImage image s).pending = s.pending := rfl
@[simp] theorem loadImage_replies (image : List Word) (s : State) : (loadImage image s).replies = s.replies := rfl

/-! ### reply -/

@[simp] theorem reply_ip (r : HostReply) (s : State) : (reply r s).ip = s.ip := rfl
@[simp] theorem reply_rb (r : HostReply) (s : State) : (reply r s).rb = s.rb := rfl
@[simp] theorem reply_status (r : HostReply) (s : State) : (reply r s).status = s.status := rfl
@[simp] theorem reply_mem (r : HostReply) (s : State) : (reply r s).mem = s.mem := rfl
@[simp] theorem reply_len (r : HostReply) (s : State) : (reply r s).len = s.len := rfl
@[simp] theorem reply_inq (r : HostReply) (s : State) : (reply r s).inq = s.inq := rfl
@[simp] theorem reply_outq (r : HostReply) (s : State) : (reply r s).outq = s.outq := rfl
@[simp] theorem reply_fault (r : HostReply) (s : State) : (reply r s).fault = s.fault := rfl
@[simp] theorem reply_fcause (r : HostReply) (s : State) : (reply r s).fcause = s.fcause := rfl
@[simp] theorem reply_fip (r : HostReply) (s : State) : (reply r s).fip = s.fip := rfl
@[simp] theorem reply_finfo (r : HostReply) (s : State) : (reply r s).finfo = s.finfo := rfl
@[simp] theorem reply_runActive (r : HostReply) (s : State) : (reply r s).runActive = s.runActive := rfl
@[simp] theorem reply_cfg (r : HostReply) (s : State) : (reply r s).cfg = s.cfg := rfl
@[simp] theorem reply_growths (r : HostReply) (s : State) : (reply r s).growths = s.growths := rfl
@[simp] theorem reply_pending (r : HostReply) (s : State) : (reply r s).pending = s.pending := rfl
@[simp] theorem reply_replies (r : HostReply) (s : State) : (reply r s).replies = s.replies ++ [r] := rfl

/-! ### forgetLen -/

@[simp] theorem forgetLen_ip (s : State) : (forgetLen s).ip = s.ip := rfl
@[simp] theorem forgetLen_rb (s : State) : (forgetLen s).rb = s.rb := rfl
@[simp] theorem forgetLen_status (s : State) : (forgetLen s).status = s.status := rfl
@[simp] theorem forgetLen_mem (s : State) : (forgetLen s).mem = s.mem := rfl
@[simp] theorem forgetLen_len (s : State) : (forgetLen s).len = 0 := rfl
@[simp] theorem forgetLen_inq (s : State) : (forgetLen s).inq = s.inq := rfl
@[simp] theorem forgetLen_outq (s : State) : (forgetLen s).outq = s.outq := rfl
@[simp] theorem forgetLen_fault (s : State) : (forgetLen s).fault = s.fault := rfl
@[simp] theorem forgetLen_fcause (s : State) : (forgetLen s).fcause = s.fcause := rfl
@[simp] theorem forgetLen_fip (s : State) : (forgetLen s).fip = s.fip := rfl
@[simp] theorem forgetLen_finfo (s : State) : (forgetLen s).finfo = s.finfo := rfl
@[simp] theorem forgetLen_runActive (s : State) : (forgetLen s).runActive = s.runActive := rfl
@[simp] theorem forgetLen_cfg (s : State) : (forgetLen s).cfg = s.cfg := rfl
@[simp] theorem forgetLen_growths (s : State) : (forgetLen s).growths = 0 := rfl
@[simp] theorem forgetLen_pending (s : State) : (forgetLen s).pending = s.pending := rfl
@[simp] theorem forgetLen_replies (s : State) : (forgetLen s).replies = s.replies := rfl

/-! ### definedPart -/

theorem definedPart_clear {s : State} (h : s.fault = false) : definedPart s = s := by
  simp [definedPart, h]

@[simp] theorem definedPart_fault (s : State) : (definedPart s).fault = s.fault := by
  unfold definedPart; split <;> rfl
@[simp] theorem definedPart_fcause (s : State) : (definedPart s).fcause = s.fcause := by
  unfold definedPart; split <;> rfl
@[simp] theorem definedPart_fip (s : State) : (definedPart s).fip = s.fip := by
  unfold definedPart; split <;> rfl
@[simp] theorem definedPart_finfo (s : State) : (definedPart s).finfo = s.finfo := by
  unfold definedPart; split <;> rfl
@[simp] theorem definedPart_runActive (s : State) : (definedPart s).runActive = s.runActive := by
  unfold definedPart; split <;> rfl
@[simp] theorem definedPart_cfg (s : State) : (definedPart s).cfg = s.cfg := by
  unfold definedPart; split <;> rfl
@[simp] theorem definedPart_pending (s : State) : (definedPart s).pending = s.pending := by
  unfold definedPart; split <;> rfl

end Sys2Proof.Machine
end

