-- ==== Sys2Proof/Laws/Operands.lean ====
section
/-! SUPPORT. What wrap64, the accesses and the operand resolutions can do, said once: either they answer the value the rules give and only the hidden length has grown, or the first invalid address faults. -/

namespace Sys2Proof.Machine

/-! ### wrap64 -/

theorem wrap64_toInt (z : Int) : (wrap64 z).toInt = z.bmod (2 ^ 64) := by
  unfold wrap64
  exact BitVec.toInt_ofInt _

/-- A result inside Int64 is exact (R132). -/
theorem wrap64_exact {z : Int} (h : -2 ^ 63 ≤ z ∧ z < 2 ^ 63) : (wrap64 z).toInt = z := by
  rw [wrap64_toInt, Int.bmod_eq_of_le] <;> omega

theorem wrap64_wrap64_add (z y : Int) : wrap64 ((wrap64 z).toInt + y) = wrap64 (z + y) := by
  apply BitVec.eq_of_toInt_eq
  simp only [wrap64_toInt, Int.bmod_add_bmod]

/-- The cursor after the k-th parameter is `wrap64(IP + k)` (R112). -/
@[simp] theorem nextCell_paramCell (s : State) (k : Nat) :
    nextCell (paramCell s k) = paramCell s (k + 1) := by
  unfold nextCell paramCell
  rw [wrap64_wrap64_add]
  congr 1
  push_cast
  ring

@[simp] theorem nextCell_ip (s : State) : nextCell s.ip = paramCell s 1 := rfl

theorem paramCell_eq (s : State) (k : Nat) : paramCell s k = wrap64 (s.ip.toInt + k) := rfl

/-! ### The first invalid address -/

theorem firstInvalid_none {cfg : Config} {as : List Word} :
    firstInvalid cfg as = none ↔ ∀ a ∈ as, validAddr cfg a = true := by
  simp [firstInvalid]

theorem firstInvalid_append (cfg : Config) (as bs : List Word) :
    firstInvalid cfg (as ++ bs) = (firstInvalid cfg as).or (firstInvalid cfg bs) := by
  simp [firstInvalid, List.find?_append]

theorem firstInvalid_some {cfg : Config} {as : List Word} {a : Word}
    (h : firstInvalid cfg as = some a) : a ∈ as ∧ validAddr cfg a = false := by
  unfold firstInvalid at h
  exact ⟨List.mem_of_find?_eq_some h, by simpa using List.find?_some h⟩

theorem accessesValid_iff (s : State) (i : Instr) :
    AccessesValid s i ↔ firstInvalid s.cfg (accesses s i) = none :=
  firstInvalid_none.symm

/-! ### Growth -/

theorem le_grownLen (len growths a : Nat) : len ≤ grownLen len growths a := by
  unfold grownLen
  split <;> omega

theorem lt_grownLen (len growths a : Nat) : a < grownLen len growths a := by
  unfold grownLen
  split <;> omega

/-- One access grows as R52 says. -/
theorem growsTo_grownLen (len growths : Nat) (a : Word) : GrowsTo len [a] (grownLen len growths a.toNat) := by
  refine ⟨_, ?_, rfl⟩
  unfold grownLen
  split
  · rfl
  · exact Nat.le_add_right _ _

theorem GrowsTo.append {n k m : Nat} {as bs : List Word} (h : GrowsTo n as k) (g : GrowsTo k bs m) :
    GrowsTo n (as ++ bs) m := by
  induction as generalizing n with
  | nil =>
    obtain rfl : k = n := h
    exact g
  | cons a as ih =>
    obtain ⟨j, hj, h⟩ := h
    exact ⟨j, hj, ih h⟩

/-- Growth never shrinks the tape, and ends beyond every address accessed. -/
theorem GrowsTo.covers {n m : Nat} {as : List Word} (h : GrowsTo n as m) :
    n ≤ m ∧ ∀ a ∈ as, a.toNat < m := by
  induction as generalizing n with
  | nil =>
    obtain rfl : m = n := h
    simp
  | cons a as ih =>
    obtain ⟨k, hk, h⟩ := h
    obtain ⟨hkm, hm⟩ := ih h
    have : n ≤ k ∧ a.toNat < k := by
      split at hk
      · omega
      · have := Nat.max_le.mp hk
        omega
    exact ⟨this.1.trans hkm, List.forall_mem_cons.mpr ⟨this.2.trans_le hkm, hm⟩⟩

/-- `t` is `s` but for the hidden length, which has grown by accesses to `as`. -/
def Grown (s t : State) (as : List Word) : Prop :=
  t = { s with len := t.len, growths := t.growths } ∧ GrowsTo s.len as t.len

theorem Grown.refl (s : State) : Grown s s [] := ⟨rfl, rfl⟩

theorem grown_touch (s : State) (a : Word) : Grown s (touch s a.toNat) [a] :=
  ⟨rfl, growsTo_grownLen _ _ _⟩

theorem Grown.trans {s t u : State} {as bs : List Word} (h : Grown s t as) (g : Grown t u bs) :
    Grown s u (as ++ bs) := by
  refine ⟨?_, h.2.append g.2⟩
  rw [g.1, h.1]

/-- What growth leaves as it was. -/
theorem Grown.fields {s t : State} {as : List Word} (h : Grown s t as) :
    t.ip = s.ip ∧ t.rb = s.rb ∧ t.mem = s.mem ∧ t.cfg = s.cfg ∧ t.inq = s.inq ∧ t.outq = s.outq := by
  rw [h.1]
  exact ⟨rfl, rfl, rfl, rfl, rfl, rfl⟩

/-! ### Reads and parameters -/

theorem memRead_valid {s : State} {a : Word} (h : validAddr s.cfg a = true) :
    memRead s a = .ok (cellAt s a, touch s a.toNat) := by
  simp [memRead, h]

theorem memRead_invalid {s : State} {a : Word} (h : validAddr s.cfg a = false) :
    memRead s a = .error (addressFault a) := by
  simp [memRead, h]

/-- A checked read in a state that has only grown from `s`. -/
theorem memRead_grown {s t : State} {as : List Word} (h : Grown s t as) (a : Word) :
    (validAddr s.cfg a = true → ∃ u, memRead t a = .ok (cellAt s a, u) ∧ Grown s u (as ++ [a])) ∧
    (validAddr s.cfg a = false → memRead t a = .error (addressFault a)) := by
  obtain ⟨-, -, hm, hc, -, -⟩ := h.fields
  constructor
  · intro hv
    refine ⟨touch t a.toNat, ?_, h.trans (grown_touch t a)⟩
    rw [memRead_valid (by rwa [hc])]
    simp [cellAt, hm]
  · intro hv
    exact memRead_invalid (by rwa [hc])

/-- ReadParam for the `k`-th parameter: its value, or the first of its two accesses that is invalid
(R113, R216). -/
theorem readParam_spec {s t : State} {as : List Word} (h : Grown s t as) {c : Word} {k : Nat}
    (hc : nextCell c = paramCell s k) (m : Mode) :
    (firstInvalid s.cfg (valueAccesses s k m) = none →
      ∃ u, readParam m c t = .ok (valueOf s k m, paramCell s k, u) ∧
        Grown s u (as ++ valueAccesses s k m)) ∧
    (∀ a, firstInvalid s.cfg (valueAccesses s k m) = some a →
      readParam m c t = .error (addressFault a)) := by
  have hrb : ∀ u bs, Grown s u bs → u.rb = s.rb := fun u bs g => g.fields.2.1
  unfold readParam valueAccesses
  simp only [hc]
  by_cases h1 : validAddr s.cfg (paramCell s k) = true
  · obtain ⟨u, hu, gu⟩ := (memRead_grown h (paramCell s k)).1 h1
    have ea : valueAddress m u.rb (paramCell s k) (cellAt s (paramCell s k)) = valueAddr s k m := by
      rw [hrb u _ gu]
      rfl
    by_cases h2 : validAddr s.cfg (valueAddr s k m) = true
    · obtain ⟨w, hw, gw⟩ := (memRead_grown gu (valueAddr s k m)).1 h2
      refine ⟨fun _ => ⟨w, ?_, by simpa using gw⟩, fun a ha => ?_⟩
      · simp [hu, ea, hw, bind, Except.bind, pure, Except.pure, valueOf]
      · simp [firstInvalid, h1, h2] at ha
    · rw [Bool.not_eq_true] at h2
      refine ⟨fun hn => ?_, fun a ha => ?_⟩
      · simp [firstInvalid, h1, h2] at hn
      · obtain rfl : valueAddr s k m = a := by simpa [firstInvalid, h1, h2] using ha
        simp [hu, ea, (memRead_grown gu (valueAddr s k m)).2 h2, bind, Except.bind]
  · rw [Bool.not_eq_true] at h1
    refine ⟨fun hn => ?_, fun a ha => ?_⟩
    · simp [firstInvalid, h1] at hn
    · obtain rfl : paramCell s k = a := by simpa [firstInvalid, h1] using ha
      simp [(memRead_grown h (paramCell s k)).2 h1, bind, Except.bind]

/-- DestParam for the `k`-th parameter: the address it names, not checked, or the fault of its own
cell (R114). -/
theorem destParam_spec {s t : State} {as : List Word} (h : Grown s t as) {c : Word} {k : Nat}
    (hc : nextCell c = paramCell s k) (m : Mode) :
    (validAddr s.cfg (paramCell s k) = true →
      ∃ u, destParam m c t = .ok (destAddr s k m, paramCell s k, u) ∧
        Grown s u (as ++ [paramCell s k])) ∧
    (validAddr s.cfg (paramCell s k) = false →
      destParam m c t = .error (addressFault (paramCell s k))) := by
  unfold destParam
  simp only [hc]
  refine ⟨fun h1 => ?_, fun h1 => ?_⟩
  · obtain ⟨u, hu, gu⟩ := (memRead_grown h (paramCell s k)).1 h1
    refine ⟨u, ?_, gu⟩
    simp [hu, bind, Except.bind, pure, Except.pure, gu.fields.2.1, destAddr]
  · simp [(memRead_grown h (paramCell s k)).2 h1, bind, Except.bind]

/-- The destination parameter, then the write it is for: the store, or the first of the two
accesses that is invalid. -/
theorem storeParam_spec {s t : State} {as : List Word} (h : Grown s t as) {c : Word} {k : Nat}
    (hc : nextCell c = paramCell s k) (m : Mode) (v : Word) :
    (firstInvalid s.cfg (destAccesses s k m) = none →
      ∃ u w, destParam m c t = .ok (destAddr s k m, paramCell s k, u) ∧
        memWrite u (destAddr s k m) v = .ok w ∧
        w = { s with mem := s.mem.write (destAddr s k m).toNat v, len := w.len, growths := w.growths } ∧
        GrowsTo s.len (as ++ destAccesses s k m) w.len) ∧
    (∀ a, firstInvalid s.cfg (destAccesses s k m) = some a →
      destParam m c t = .error (addressFault a) ∨
      ∃ u, destParam m c t = .ok (destAddr s k m, paramCell s k, u) ∧
        memWrite u (destAddr s k m) v = .error (addressFault a)) := by
  unfold destAccesses
  by_cases h1 : validAddr s.cfg (paramCell s k) = true
  · obtain ⟨u, hu, gu⟩ := (destParam_spec h hc m).1 h1
    have hcfg : u.cfg = s.cfg := gu.fields.2.2.2.1
    by_cases h2 : validAddr s.cfg (destAddr s k m) = true
    · refine ⟨fun _ => ⟨u, putCell u (destAddr s k m).toNat v, hu, ?_, ?_, ?_⟩, fun a ha => ?_⟩
      · simp [memWrite, hcfg, h2]
      · have := gu.1
        rw [this]
        rfl
      · have := (gu.trans (grown_touch u (destAddr s k m))).2
        rw [List.append_assoc] at this
        exact this
      · simp [firstInvalid, h1, h2] at ha
    · rw [Bool.not_eq_true] at h2
      refine ⟨fun hn => ?_, fun a ha => .inr ⟨u, hu, ?_⟩⟩
      · simp [firstInvalid, h1, h2] at hn
      · obtain rfl : destAddr s k m = a := by simpa [firstInvalid, h1, h2] using ha
        simp [memWrite, hcfg, h2]
  · rw [Bool.not_eq_true] at h1
    refine ⟨fun hn => ?_, fun a ha => .inl ?_⟩
    · simp [firstInvalid, h1] at hn
    · have : paramCell s k = a := by simpa [firstInvalid, h1] using ha
      rw [(destParam_spec h hc m).2 h1, this]

end Sys2Proof.Machine
end

