-- ==== Sys2Proof/Laws/Exec.lean ====
section
/-! SUPPORT. What each shared instruction form can do, said once: the complete effect when every access is valid, the fault of the first invalid access otherwise (spec/60_exceptions.md R216). -/

namespace Sys2Proof.Machine

theorem advance_paramCell (s : State) (k : Nat) : advance (paramCell s k) s = { s with ip := paramCell s (k + 1) } := by
  simp [advance]

/-- Format VVD: the result stored, IP past the four cells; or the first invalid access. -/
theorem storeBinary_spec (f : Word → Word → Word) (mA mB mC : Mode) (s : State) :
    (firstInvalid s.cfg (valueAccesses s 1 mA ++ valueAccesses s 2 mB ++ destAccesses s 3 mC) = none →
      ∃ t, storeBinary f mA mB mC s = .next t ∧
        t = { s with
          ip := paramCell s 4
          mem := s.mem.write (destAddr s 3 mC).toNat (f (valueOf s 1 mA) (valueOf s 2 mB))
          len := t.len, growths := t.growths } ∧
        GrowsTo s.len (valueAccesses s 1 mA ++ valueAccesses s 2 mB ++ destAccesses s 3 mC) t.len) ∧
    (∀ a, firstInvalid s.cfg (valueAccesses s 1 mA ++ valueAccesses s 2 mB ++ destAccesses s 3 mC) = some a →
      storeBinary f mA mB mC s = .next (raise (addressFault a) s)) := by
  have p1 := readParam_spec (Grown.refl s) (nextCell_ip s) mA
  rw [firstInvalid_append, firstInvalid_append]
  unfold storeBinary
  rcases h1 : firstInvalid s.cfg (valueAccesses s 1 mA) with _ | a1
  · obtain ⟨t1, r1, g1⟩ := p1.1 h1
    have p2 := readParam_spec g1 (nextCell_paramCell s 1) mB
    rcases h2 : firstInvalid s.cfg (valueAccesses s 2 mB) with _ | a2
    · obtain ⟨t2, r2, g2⟩ := p2.1 h2
      have p3 := storeParam_spec g2 (nextCell_paramCell s 2) mC (f (valueOf s 1 mA) (valueOf s 2 mB))
      rcases h3 : firstInvalid s.cfg (destAccesses s 3 mC) with _ | a3
      · obtain ⟨t3, w, r3, hw, e, l⟩ := p3.1 h3
        simp only [List.nil_append] at l
        refine ⟨fun _ => ⟨advance (paramCell s 3) w, ?_, ?_, l⟩, by simp⟩
        · simp [r1, r2, r3, hw, bind, Except.bind, pure, Except.pure, finish]
        · rw [e]
          simp [advance]
      · refine ⟨by simp, fun a ha => ?_⟩
        obtain rfl : a3 = a := by simpa using ha
        rcases p3.2 a3 h3 with r3 | ⟨t3, r3, hw⟩
        · simp [r1, r2, r3, bind, Except.bind, finish]
        · simp [r1, r2, r3, hw, bind, Except.bind, finish]
    · refine ⟨by simp, fun a ha => ?_⟩
      obtain rfl : a2 = a := by simpa using ha
      simp [r1, p2.2 a2 h2, bind, Except.bind, finish]
  · refine ⟨by simp, fun a ha => ?_⟩
    obtain rfl : a1 = a := by simpa using ha
    simp [p1.2 a1 h1, bind, Except.bind, finish]

/-- Format VV: IP is the second value or past the three cells; or the first invalid access. -/
theorem jumpWhen_spec (test : Word → Bool) (mA mB : Mode) (s : State) :
    (firstInvalid s.cfg (valueAccesses s 1 mA ++ valueAccesses s 2 mB) = none →
      ∃ t, jumpWhen test mA mB s = .next t ∧
        t = { s with
          ip := if test (valueOf s 1 mA) then valueOf s 2 mB else paramCell s 3
          len := t.len, growths := t.growths } ∧
        GrowsTo s.len (valueAccesses s 1 mA ++ valueAccesses s 2 mB) t.len) ∧
    (∀ a, firstInvalid s.cfg (valueAccesses s 1 mA ++ valueAccesses s 2 mB) = some a →
      jumpWhen test mA mB s = .next (raise (addressFault a) s)) := by
  have p1 := readParam_spec (Grown.refl s) (nextCell_ip s) mA
  rw [firstInvalid_append]
  unfold jumpWhen
  rcases h1 : firstInvalid s.cfg (valueAccesses s 1 mA) with _ | a1
  · obtain ⟨t1, r1, g1⟩ := p1.1 h1
    have p2 := readParam_spec g1 (nextCell_paramCell s 1) mB
    rcases h2 : firstInvalid s.cfg (valueAccesses s 2 mB) with _ | a2
    · obtain ⟨t2, r2, g2⟩ := p2.1 h2
      have e := g2.1
      have l := g2.2
      simp only [List.nil_append] at l
      refine ⟨fun _ => ?_, by simp⟩
      by_cases ht : test (valueOf s 1 mA) = true
      · refine ⟨{ t2 with ip := valueOf s 2 mB }, ?_, ?_, l⟩
        · simp [r1, r2, ht, bind, Except.bind, pure, Except.pure, finish]
        · rw [e]
          simp [ht]
      · refine ⟨advance (paramCell s 2) t2, ?_, ?_, l⟩
        · simp [r1, r2, ht, bind, Except.bind, pure, Except.pure, finish]
        · rw [e]
          simp [ht, advance]
    · refine ⟨by simp, fun a ha => ?_⟩
      obtain rfl : a2 = a := by simpa using ha
      simp [r1, p2.2 a2 h2, bind, Except.bind, finish]
  · refine ⟨by simp, fun a ha => ?_⟩
    obtain rfl : a1 = a := by simpa using ha
    simp [p1.2 a1 h1, bind, Except.bind, finish]

/-- Format V: the value is read in a state that has only grown, then handed on; or the first
invalid access. -/
theorem consumeValue_spec (act : Word → State → Except Raise State) (mA : Mode) (s : State) :
    (firstInvalid s.cfg (valueAccesses s 1 mA) = none →
      ∃ t, Grown s t (valueAccesses s 1 mA) ∧
        consumeValue act mA s =
          match act (valueOf s 1 mA) t with
          | .ok u => .next (advance (paramCell s 1) u)
          | .error r => .next (raise r s)) ∧
    (∀ a, firstInvalid s.cfg (valueAccesses s 1 mA) = some a →
      consumeValue act mA s = .next (raise (addressFault a) s)) := by
  have p1 := readParam_spec (Grown.refl s) (nextCell_ip s) mA
  unfold consumeValue
  refine ⟨fun h1 => ?_, fun a h1 => ?_⟩
  · obtain ⟨t, r, g⟩ := p1.1 h1
    refine ⟨t, by simpa using g, ?_⟩
    rcases hu : act (valueOf s 1 mA) t with e | u
    · simp [r, hu, bind, Except.bind, finish]
    · simp [r, hu, bind, Except.bind, pure, Except.pure, finish]
  · simp [p1.2 a h1, bind, Except.bind, finish]

/-- OUT: the value appended; QueueOverflow on a full buffer, after its value was read; or the first
invalid access. -/
theorem execOut_spec (mA : Mode) (s : State) :
    (firstInvalid s.cfg (valueAccesses s 1 mA) = none → s.cfg.outqCap ≠ some s.outq.length →
      ∃ t, execOut mA s = .next t ∧
        t = { s with ip := paramCell s 2, outq := s.outq ++ [valueOf s 1 mA], len := t.len, growths := t.growths } ∧
        GrowsTo s.len (valueAccesses s 1 mA) t.len) ∧
    (firstInvalid s.cfg (valueAccesses s 1 mA) = none → s.cfg.outqCap = some s.outq.length →
      execOut mA s = .next (raise queueOverflow s)) ∧
    (∀ a, firstInvalid s.cfg (valueAccesses s 1 mA) = some a →
      execOut mA s = .next (raise (addressFault a) s)) := by
  have p := consumeValue_spec appendOutput mA s
  refine ⟨fun h hc => ?_, fun h hc => ?_, p.2⟩
  · obtain ⟨t, g, r⟩ := p.1 h
    obtain ⟨-, -, -, hcfg, -, ho⟩ := g.fields
    have e := g.1
    refine ⟨advance (paramCell s 1) { t with outq := s.outq ++ [valueOf s 1 mA] }, ?_, ?_, g.2⟩
    · unfold execOut
      simpa [appendOutput, hcfg, ho, hc] using r
    · rw [e]
      simp [advance]
  · obtain ⟨t, g, r⟩ := p.1 h
    obtain ⟨-, -, -, hcfg, -, ho⟩ := g.fields
    unfold execOut
    simpa [appendOutput, hcfg, ho, hc] using r

/-- ARB: the value added to RB; or the first invalid access. -/
theorem execArb_spec (mA : Mode) (s : State) :
    (firstInvalid s.cfg (valueAccesses s 1 mA) = none →
      ∃ t, execArb mA s = .next t ∧
        t = { s with
          ip := paramCell s 2
          rb := wrap64 (s.rb.toInt + (valueOf s 1 mA).toInt), len := t.len, growths := t.growths } ∧
        GrowsTo s.len (valueAccesses s 1 mA) t.len) ∧
    (∀ a, firstInvalid s.cfg (valueAccesses s 1 mA) = some a →
      execArb mA s = .next (raise (addressFault a) s)) := by
  have p := consumeValue_spec adjustBase mA s
  refine ⟨fun h => ?_, p.2⟩
  obtain ⟨t, g, r⟩ := p.1 h
  obtain ⟨-, hrb, -, -, -, -⟩ := g.fields
  have e := g.1
  refine ⟨advance (paramCell s 1) { t with rb := wrap64 (s.rb.toInt + (valueOf s 1 mA).toInt) }, ?_, ?_, g.2⟩
  · unfold execArb
    simpa [adjustBase, hrb] using r
  · rw [e]
    simp [advance]

/-- IN: on an empty queue a yield and nothing else; otherwise the head stored and removed, or the
first invalid access. -/
theorem execIn_spec (mA : Mode) (s : State) :
    (s.inq = [] → execIn mA s = .next { s with status := .yielded }) ∧
    (∀ v rest, s.inq = v :: rest → firstInvalid s.cfg (destAccesses s 1 mA) = none →
      ∃ t, execIn mA s = .next t ∧
        t = { s with
          ip := paramCell s 2
          mem := s.mem.write (destAddr s 1 mA).toNat v
          inq := rest, len := t.len, growths := t.growths } ∧
        GrowsTo s.len (destAccesses s 1 mA) t.len) ∧
    (∀ v rest a, s.inq = v :: rest → firstInvalid s.cfg (destAccesses s 1 mA) = some a →
      execIn mA s = .next (raise (addressFault a) s)) := by
  refine ⟨fun h => by simp [execIn, h], fun v rest h h1 => ?_, fun v rest a h h1 => ?_⟩
  · obtain ⟨t, w, r, hw, e, l⟩ := (storeParam_spec (Grown.refl s) (nextCell_ip s) mA v).1 h1
    simp only [List.nil_append] at l
    refine ⟨advance (paramCell s 1) { w with inq := rest }, ?_, ?_, l⟩
    · simp [execIn, h, r, hw, bind, Except.bind, pure, Except.pure, finish]
    · rw [e]
      simp [advance]
  · rcases (storeParam_spec (Grown.refl s) (nextCell_ip s) mA v).2 a h1 with r | ⟨t, r, hw⟩
    · simp [execIn, h, r, bind, Except.bind, finish]
    · simp [execIn, h, r, hw, bind, Except.bind, finish]

/-! ### The form each instruction has -/

theorem exec_add (mA mB mC : Mode) (s : State) : exec (.add mA mB mC) s = storeBinary wrappedSum mA mB mC s := rfl
theorem exec_mul (mA mB mC : Mode) (s : State) : exec (.mul mA mB mC) s = storeBinary wrappedProduct mA mB mC s := rfl
theorem exec_lt (mA mB mC : Mode) (s : State) : exec (.lt mA mB mC) s = storeBinary lessThan mA mB mC s := rfl
theorem exec_eq (mA mB mC : Mode) (s : State) : exec (.eq mA mB mC) s = storeBinary equals mA mB mC s := rfl
theorem exec_jt (mA mB : Mode) (s : State) : exec (.jt mA mB) s = jumpWhen isNonzero mA mB s := rfl
theorem exec_jf (mA mB : Mode) (s : State) : exec (.jf mA mB) s = jumpWhen isZero mA mB s := rfl
theorem exec_inp (mA : Mode) (s : State) : exec (.inp mA) s = execIn mA s := rfl
theorem exec_out (mA : Mode) (s : State) : exec (.out mA) s = execOut mA s := rfl
theorem exec_arb (mA : Mode) (s : State) : exec (.arb mA) s = execArb mA s := rfl
theorem exec_halt (s : State) : exec .halt s = .next { s with status := .halted, ip := paramCell s 1 } := rfl

/-- Everything an instruction can do. -/
inductive Effect (i : Instr) (s : State) : State → Prop where
  /-- A fault is taken. -/
  | faulted (r : Raise) (h : r.cause = .addressFault ∨ r.cause = .queueOverflow) : Effect i s (raise r s)
  /-- ADD, MUL, LT, EQ store. -/
  | stored (m : Mode) (v : Word) (len growths : Nat) (hm : i.destMode = some m)
      (hlen : s.len ≤ len) (hd : (destAddr s 3 m).toNat < len)
      (hv : validAddr s.cfg (destAddr s 3 m) = true) (hp : i.paramCount = 3) :
      Effect i s { s with
        ip := paramCell s 4, mem := s.mem.write (destAddr s 3 m).toNat v, len := len, growths := growths }
  /-- IN on an empty queue yields. -/
  | yielded (m : Mode) (hi : i = .inp m) (hq : s.inq = []) : Effect i s { s with status := .yielded }
  /-- IN stores the head of INQ. -/
  | received (m : Mode) (v : Word) (rest : List Word) (len growths : Nat) (hi : i = .inp m)
      (hq : s.inq = v :: rest) (hlen : s.len ≤ len) (hd : (destAddr s 1 m).toNat < len)
      (hv : validAddr s.cfg (destAddr s 1 m) = true) :
      Effect i s { s with
        ip := paramCell s 2, mem := s.mem.write (destAddr s 1 m).toNat v
        inq := rest, len := len, growths := growths }
  /-- OUT appends. -/
  | output (m : Mode) (len growths : Nat) (hi : i = .out m) (hlen : s.len ≤ len)
      (hc : s.cfg.outqCap ≠ some s.outq.length) :
      Effect i s { s with
        ip := paramCell s 2, outq := s.outq ++ [valueOf s 1 m], len := len, growths := growths }
  /-- JT and JF set IP. -/
  | jumped (mA mB : Mode) (len growths : Nat) (hi : i = .jt mA mB ∨ i = .jf mA mB) (hlen : s.len ≤ len)
      (target : Word) (ht : target = valueOf s 2 mB ∨ target = paramCell s 3) :
      Effect i s { s with ip := target, len := len, growths := growths }
  /-- ARB adds to RB. -/
  | adjusted (m : Mode) (len growths : Nat) (hi : i = .arb m) (hlen : s.len ≤ len) :
      Effect i s { s with
        ip := paramCell s 2, rb := wrap64 (s.rb.toInt + (valueOf s 1 m).toInt)
        len := len, growths := growths }
  /-- HALT. -/
  | halted (hi : i = .halt) : Effect i s { s with ip := paramCell s 1, status := .halted }

theorem storeBinary_effect {i : Instr} {mA mB mC : Mode} (f : Word → Word → Word) (s : State)
    (hm : i.destMode = some mC) (hp : i.paramCount = 3) :
    ∃ t, storeBinary f mA mB mC s = .next t ∧ Effect i s t := by
  have p := storeBinary_spec f mA mB mC s
  rcases h : firstInvalid s.cfg (valueAccesses s 1 mA ++ valueAccesses s 2 mB ++ destAccesses s 3 mC) with _ | a
  · obtain ⟨t, r, e, l⟩ := p.1 h
    refine ⟨t, r, ?_⟩
    rw [e]
    exact .stored mC _ _ _ hm l.covers.1 (l.covers.2 _ (by simp [destAccesses]))
      (firstInvalid_none.mp h _ (by simp [destAccesses])) hp
  · exact ⟨_, p.2 a h, .faulted _ (.inl rfl)⟩

theorem jumpWhen_effect {i : Instr} {mA mB : Mode} (test : Word → Bool) (s : State)
    (hi : i = .jt mA mB ∨ i = .jf mA mB) : ∃ t, jumpWhen test mA mB s = .next t ∧ Effect i s t := by
  have p := jumpWhen_spec test mA mB s
  rcases h : firstInvalid s.cfg (valueAccesses s 1 mA ++ valueAccesses s 2 mB) with _ | a
  · obtain ⟨t, r, e, l⟩ := p.1 h
    refine ⟨t, r, ?_⟩
    rw [e]
    refine .jumped mA mB _ _ hi l.covers.1 _ ?_
    split <;> simp
  · exact ⟨_, p.2 a h, .faulted _ (.inl rfl)⟩

/-- The inversion of `exec`: every instruction answers a next state, with one of these effects. -/
theorem exec_effect (i : Instr) (s : State) : ∃ t, exec i s = .next t ∧ Effect i s t := by
  cases i with
  | add mA mB mC => exact storeBinary_effect wrappedSum s rfl rfl
  | mul mA mB mC => exact storeBinary_effect wrappedProduct s rfl rfl
  | lt mA mB mC => exact storeBinary_effect lessThan s rfl rfl
  | eq mA mB mC => exact storeBinary_effect equals s rfl rfl
  | jt mA mB => exact jumpWhen_effect _ s (.inl rfl)
  | jf mA mB => exact jumpWhen_effect _ s (.inr rfl)
  | inp mA =>
    have p := execIn_spec mA s
    rcases hq : s.inq with _ | ⟨v, rest⟩
    · exact ⟨_, p.1 hq, .yielded mA rfl hq⟩
    · rcases h : firstInvalid s.cfg (destAccesses s 1 mA) with _ | a
      · obtain ⟨t, r, e, l⟩ := p.2.1 v rest hq h
        refine ⟨t, r, ?_⟩
        rw [e]
        exact .received mA v rest _ _ rfl hq l.covers.1 (l.covers.2 _ (by simp [destAccesses]))
          (firstInvalid_none.mp h _ (by simp [destAccesses]))
      · exact ⟨_, p.2.2 v rest a hq h, .faulted _ (.inl rfl)⟩
  | out mA =>
    have p := execOut_spec mA s
    rcases h : firstInvalid s.cfg (valueAccesses s 1 mA) with _ | a
    · by_cases hc : s.cfg.outqCap = some s.outq.length
      · exact ⟨_, p.2.1 h hc, .faulted _ (.inr rfl)⟩
      · obtain ⟨t, r, e, l⟩ := p.1 h hc
        refine ⟨t, r, ?_⟩
        rw [e]
        exact .output mA _ _ rfl l.covers.1 hc
    · exact ⟨_, p.2.2 a h, .faulted _ (.inl rfl)⟩
  | arb mA =>
    have p := execArb_spec mA s
    rcases h : firstInvalid s.cfg (valueAccesses s 1 mA) with _ | a
    · obtain ⟨t, r, e, l⟩ := p.1 h
      refine ⟨t, r, ?_⟩
      rw [e]
      exact .adjusted mA _ _ rfl l.covers.1
    · exact ⟨_, p.2 a h, .faulted _ (.inl rfl)⟩
  | halt => exact ⟨_, rfl, .halted rfl⟩

end Sys2Proof.Machine
end

