-- ==== Sys2Proof/Laws/PerInstr.lean ====
section
/-! SUPPORT. Facts proved instruction by instruction: EncodeFields says which decimal fields the word of an instruction has. -/

namespace Sys2Proof.Laws.EncodeFields

/-- The word of an instruction is its number below 100000, not negative, with its opcode in the low
two digits and its mode digits above them (R80, R94). -/
def Statement (i : Instr) : Prop :=
  (encode i).toNat = 100 * modeDigits i + opcode i ∧ (encode i).toNat < 100000 ∧
  0 ≤ (encode i).toInt ∧ (encode i).toNat % 100 = opcode i

theorem add (mA mB mC : Mode) : Statement (.add mA mB mC) := by
  cases mA <;> cases mB <;> cases mC <;> unfold Statement <;> decide

theorem mul (mA mB mC : Mode) : Statement (.mul mA mB mC) := by
  cases mA <;> cases mB <;> cases mC <;> unfold Statement <;> decide

theorem inp (mA : Mode) : Statement (.inp mA) := by
  cases mA <;> unfold Statement <;> decide

theorem out (mA : Mode) : Statement (.out mA) := by
  cases mA <;> unfold Statement <;> decide

theorem jt (mA mB : Mode) : Statement (.jt mA mB) := by
  cases mA <;> cases mB <;> unfold Statement <;> decide

theorem jf (mA mB : Mode) : Statement (.jf mA mB) := by
  cases mA <;> cases mB <;> unfold Statement <;> decide

theorem lt (mA mB mC : Mode) : Statement (.lt mA mB mC) := by
  cases mA <;> cases mB <;> cases mC <;> unfold Statement <;> decide

theorem eq (mA mB mC : Mode) : Statement (.eq mA mB mC) := by
  cases mA <;> cases mB <;> cases mC <;> unfold Statement <;> decide

theorem arb (mA : Mode) : Statement (.arb mA) := by
  cases mA <;> unfold Statement <;> decide

theorem halt : Statement .halt := by
  unfold Statement
  decide

end Sys2Proof.Laws.EncodeFields

namespace Sys2Proof.Laws

/-- The decimal fields of every instruction's word. -/
theorem encodeFields (i : Instr) : EncodeFields.Statement i := by
  cases i with
  | add mA mB mC => exact EncodeFields.add mA mB mC
  | mul mA mB mC => exact EncodeFields.mul mA mB mC
  | inp mA => exact EncodeFields.inp mA
  | out mA => exact EncodeFields.out mA
  | jt mA mB => exact EncodeFields.jt mA mB
  | jf mA mB => exact EncodeFields.jf mA mB
  | lt mA mB mC => exact EncodeFields.lt mA mB mC
  | eq mA mB mC => exact EncodeFields.eq mA mB mC
  | arb mA => exact EncodeFields.arb mA
  | halt => exact EncodeFields.halt

end Sys2Proof.Laws
end

