-- ==== Sys2Proof/Laws/Step.lean ====
section
/-! SUPPORT. What a step can do, said once: an instruction, a fault of the fetch or the decoder, the return of a RUN, or one legal host command; and what each host command does. -/

namespace Sys2Proof.Machine

theorem mayStep_iff (s : State) : mayStep s = true ↔ s.status = .running ∧ s.fault = false := by
  simp [mayStep]

/-- An instruction step (R121). -/
theorem step_of_coreMoves {s : State} (h : CoreMoves s) : step s = coreStep s := by
  obtain ⟨ha, hs⟩ := h
  simp [step, turn, ha, (mayStep_iff s).mpr hs]

/-- A RUN that may not step returns (R192). -/
theorem step_of_run_over {s : State} (ha : s.runActive = true) (h : ¬ CoreMoves s) :
    step s = .next (endRun s) := by
  have hm : mayStep s = false := by
    by_contra hm
    exact h ⟨ha, (mayStep_iff s).mp (by simpa using hm)⟩
  simp [step, turn, ha, hm]

/-- The host's turn, with a command. -/
theorem step_of_command {s : State} {c : HostCommand} {rest : List HostCommand}
    (ha : s.runActive = false) (hp : s.pending = c :: rest) :
    step s = hostCommand c { s with pending := rest } := by
  simp [step, turn, ha, hostTurn, hp]

/-- The host's turn, without a command: no next state. -/
theorem step_of_idle {s : State} (ha : s.runActive = false) (hp : s.pending = []) (t : State) :
    step s ≠ .next t := by
  simp only [step, turn, ha, hostTurn, hp, Bool.false_eq_true, if_false]
  split <;> simp

/-- The fetch, the decoder, the instruction (R110). -/
theorem coreStep_ok {s : State} {i : Instr} (hv : validAddr s.cfg s.ip = true)
    (hd : decode (cellAt s s.ip) = .ok i) : coreStep s = exec i (touch s s.ip.toNat) := by
  simp [coreStep, fetch, memRead_valid hv, hd]

theorem coreStep_illegal {s : State} {e : DecodeError} (hv : validAddr s.cfg s.ip = true)
    (hd : decode (cellAt s s.ip) = .error e) :
    coreStep s = .next (raise (illegalInstruction (cellAt s s.ip)) (touch s s.ip.toNat)) := by
  simp [coreStep, fetch, memRead_valid hv, hd]

theorem coreStep_invalid {s : State} (hv : validAddr s.cfg s.ip = false) :
    coreStep s = .next (raise (addressFault s.ip) s) := by
  simp [coreStep, fetch, memRead_invalid hv]

theorem hostCommand_next {c : HostCommand} {s t : State} (h : hostCommand c s = .next t) :
    commandRefusal s c = none ∧ t = performCommand s c := by
  unfold hostCommand at h
  split at h
  · exact absurd h (by simp)
  · next hn => exact ⟨hn, by simpa using h.symm⟩

theorem hostCommand_legal {c : HostCommand} {s : State} (h : commandRefusal s c = none) :
    hostCommand c s = .next (performCommand s c) := by
  simp [hostCommand, h]

theorem hostCommand_refused {c : HostCommand} {s : State} {why : CommandRefusal}
    (h : commandRefusal s c = some why) : hostCommand c s = .refused (.hostCommand why) := by
  simp [hostCommand, h]

/-- Everything a step to a next state can be. -/
inductive StepCase (s t : State) : Prop where
  | fetchFault (hm : CoreMoves s) (hv : validAddr s.cfg s.ip = false) (ht : t = raise (addressFault s.ip) s)
  | illegal (hm : CoreMoves s) (hv : validAddr s.cfg s.ip = true) (e : DecodeError)
      (hd : decode (cellAt s s.ip) = .error e)
      (ht : t = raise (illegalInstruction (cellAt s s.ip)) (touch s s.ip.toNat))
  | instr (hm : CoreMoves s) (hv : validAddr s.cfg s.ip = true) (i : Instr)
      (hd : decode (cellAt s s.ip) = .ok i) (he : Effect i (touch s s.ip.toNat) t)
  | runOver (ha : s.runActive = true) (hm : ¬ CoreMoves s) (ht : t = endRun s)
  | command (ha : s.runActive = false) (c : HostCommand) (rest : List HostCommand) (hp : s.pending = c :: rest)
      (hl : commandRefusal { s with pending := rest } c = none)
      (ht : t = performCommand { s with pending := rest } c)

/-- The inversion of `step`. -/
theorem step_cases {s t : State} (h : step s = .next t) : StepCase s t := by
  rcases ha : s.runActive with _ | _
  · rcases hp : s.pending with _ | ⟨c, rest⟩
    · exact absurd h (step_of_idle ha hp t)
    · rw [step_of_command ha hp] at h
      obtain ⟨hl, ht⟩ := hostCommand_next h
      exact .command ha c rest hp hl ht
  · by_cases hm : CoreMoves s
    · rw [step_of_coreMoves hm] at h
      rcases hv : validAddr s.cfg s.ip with _ | _
      · rw [coreStep_invalid hv] at h
        exact .fetchFault hm hv (by simpa using h.symm)
      · rcases hd : decode (cellAt s s.ip) with e | i
        · rw [coreStep_illegal hv hd] at h
          exact .illegal hm hv e hd (by simpa using h.symm)
        · rw [coreStep_ok hv hd] at h
          obtain ⟨u, hu, he⟩ := exec_effect i (touch s s.ip.toNat)
          obtain rfl : u = t := by simpa [hu] using h
          exact .instr hm hv i hd he
    · rw [step_of_run_over ha hm] at h
      exact .runOver ha hm (by simpa using h.symm)

/-- PUSH_INPUT on a machine that is not Halted. -/
theorem pushInput_live {s : State} (h : s.status ≠ .halted) (v : Word) :
    pushInput v s = { s with inq := s.inq ++ [v], status := .running } := by
  unfold pushInput
  rcases hs : s.status with _ | _ | _
  · simp only
  · rfl
  · exact absurd hs h

/-- PUSH_INPUT on a Halted machine. -/
theorem pushInput_halted {s : State} (h : s.status = .halted) (v : Word) : pushInput v s = s := by
  simp [pushInput, h]

theorem seedInput_halted (values : List Word) {s : State} (h : s.status = .halted) :
    values.foldl (fun t v => pushInput v t) s = s := by
  induction values with
  | nil => rfl
  | cons v rest ih => rw [List.foldl_cons, pushInput_halted h, ih]

/-- SEED_INPUT of at least one value on a machine that is not Halted. -/
theorem seedInput_live (v : Word) (values : List Word) {s : State} (h : s.status ≠ .halted) :
    (v :: values).foldl (fun t v => pushInput v t) s =
      { s with inq := s.inq ++ v :: values, status := .running } := by
  induction values generalizing v s with
  | nil => simp [pushInput_live h]
  | cons w rest ih =>
    rw [List.foldl_cons, pushInput_live h, ih w (by simp)]
    simp

/-- RUN on a machine that is not Halted. -/
theorem startRun_live {s : State} (h : s.status ≠ .halted) :
    startRun s = { s with outq := [], status := .running, runActive := true } := by
  unfold startRun
  rcases hs : s.status with _ | _ | _
  · simp only
  · rfl
  · exact absurd hs h

/-- RUN on a Halted machine. -/
theorem startRun_halted {s : State} (h : s.status = .halted) : startRun s = { s with outq := [] } := by
  simp [startRun, h]

/-- What a legal command other than LOAD leaves as it was. -/
structure CommandKeeps (s t : State) : Prop where
  ip : t.ip = s.ip
  rb : t.rb = s.rb
  cells : ∀ a, 2 < a → t.mem.read a = s.mem.read a
  inq : s.inq <+: t.inq
  latch : t.fault = s.fault ∧ t.fcause = s.fcause ∧ t.fip = s.fip ∧ t.finfo = s.finfo
  cfg : t.cfg = s.cfg
  len : s.len ≤ t.len
  halted : s.status = .halted → t.status = .halted ∧ t.inq = s.inq

theorem performCommand_keeps (s : State) (c : HostCommand) (h : ∀ image, c ≠ .load image) :
    CommandKeeps s (performCommand s c) := by
  have cell : ∀ (u : State) (a : Nat) (v : Word), a ≤ 2 → CommandKeeps s u → CommandKeeps s (putCell u a v) := by
    intro u a v ha k
    refine ⟨k.ip, k.rb, fun b hb => ?_, k.inq, k.latch, k.cfg, k.len.trans (le_grownLen _ _ _), k.halted⟩
    rw [putCell_mem, Memory.read_write, if_neg (by omega), k.cells b hb]
  have self : CommandKeeps s s :=
    ⟨rfl, rfl, fun _ _ => rfl, List.prefix_rfl, ⟨rfl, rfl, rfl, rfl⟩, rfl, le_rfl, fun h => ⟨h, rfl⟩⟩
  have input : ∀ values : List Word, s.status ≠ .halted →
      CommandKeeps s { s with inq := s.inq ++ values, status := .running } := fun values hs =>
    ⟨rfl, rfl, fun _ _ => rfl, List.prefix_append _ _, ⟨rfl, rfl, rfl, rfl⟩, rfl, le_rfl, fun h => absurd h hs⟩
  cases c with
  | load image => exact absurd rfl (h image)
  | cfgCell0 v => exact cell s 0 v (by omega) self
  | cfgNounVerb noun verb => exact cell _ 2 verb le_rfl (cell s 1 noun (by omega) self)
  | pushInput v =>
    by_cases hs : s.status = .halted
    · simpa [performCommand, pushInput_halted hs] using self
    · simpa [performCommand, pushInput_live hs] using input [v] hs
  | seedInput values =>
    by_cases hs : s.status = .halted
    · simpa only [performCommand, seedInput_halted values hs] using self
    · cases values with
      | nil => exact self
      | cons v values => simpa only [performCommand, seedInput_live v values hs] using input (v :: values) hs
  | run =>
    by_cases hs : s.status = .halted
    · simp only [performCommand, startRun_halted hs]
      exact ⟨rfl, rfl, fun _ _ => rfl, List.prefix_rfl, ⟨rfl, rfl, rfl, rfl⟩, rfl, le_rfl, fun h => ⟨h, rfl⟩⟩
    · simp only [performCommand, startRun_live hs]
      exact ⟨rfl, rfl, fun _ _ => rfl, List.prefix_rfl, ⟨rfl, rfl, rfl, rfl⟩, rfl, le_rfl, fun h => absurd h hs⟩
  | readStatus => exact ⟨rfl, rfl, fun _ _ => rfl, List.prefix_rfl, ⟨rfl, rfl, rfl, rfl⟩, rfl, le_rfl, fun h => ⟨h, rfl⟩⟩
  | readOutput => exact ⟨rfl, rfl, fun _ _ => rfl, List.prefix_rfl, ⟨rfl, rfl, rfl, rfl⟩, rfl, le_rfl, fun h => ⟨h, rfl⟩⟩
  | peek a =>
    exact ⟨rfl, rfl, fun _ _ => rfl, List.prefix_rfl, ⟨rfl, rfl, rfl, rfl⟩, rfl, le_grownLen _ _ _, fun h => ⟨h, rfl⟩⟩

/-- A property that one step other than a LOAD keeps holds of everything a run reaches. -/
theorem Reaches.keeps {p : State → Prop} (hs : ∀ s t, p s → ¬ LoadIssued s → step s = .next t → p t)
    {s t : State} (h : Reaches s t) (h0 : p s) : p t := by
  induction h with
  | refl => exact h0
  | tail _ hl hu ih => exact hs _ _ ih hl hu

/-- An outcome that agrees with a next state without a fault is that next state. -/
theorem SameOutcome.eq_next {o : Host.Outcome State Fault Refusal} {t : State}
    (h : SameOutcome o (.next t)) (ht : t.fault = false) : o = .next t := by
  cases o with
  | next s =>
    have e : definedPart s = t := by simpa [SameOutcome, definedOutcome, definedPart, ht] using h
    have hs : s.fault = false := by rw [← definedPart_fault, e, ht]
    rw [← e, definedPart_clear hs]
  | fault r => simp [SameOutcome, definedOutcome] at h
  | refused r => simp [SameOutcome, definedOutcome] at h

end Sys2Proof.Machine
end

