-- ==== Sys2Proof/Tests/Slice0.lean ====
section
/-! SUPPORT. Tests: words written out from spec/30_encoding.md, single steps with the end states of spec/95_test_vectors.md and of the instructions' own examples, ill-formed terms, and for every statement with hypotheses a state and operands that meet them all. -/

namespace Sys2Proof.Tests

open Sys2Proof Sys2Proof.Machine

/-- A machine in a RUN, right after LOAD of these cells. -/
def tape (cells : List Word) : State :=
  { State.reset with mem := Memory.ofImageFrom 0 cells, len := cells.length, runActive := true }

/-- A freshly loaded machine outside a RUN, whose host issues these commands. -/
def host (cells : List Word) (cs : List HostCommand) : State :=
  { tape cells with runActive := false, pending := cs }

/-- The largest and the smallest cell values (95_test_vectors.md section 1). -/
def max : Word := 9223372036854775807
def min : Word := -9223372036854775808

/-- What `f` sees of a next state. -/
def look {α : Type} (f : State → α) : Host.Outcome State Fault Refusal → Option α
  | .next s => some (f s)
  | .fault _ => none
  | .refused _ => none

/-- Why an outcome is a refusal, if it is one. -/
def refusal : Host.Outcome State Fault Refusal → Option Refusal
  | .next _ => none
  | .fault _ => none
  | .refused r => some r

/-- A next state with a property, found by evaluation. -/
theorem next_with {o : Host.Outcome State Fault Refusal} (p : State → Prop) [DecidablePred p]
    (h : look (fun t => decide (p t)) o = some true) : ∃ t, o = .next t ∧ p t := by
  cases o with
  | next t => exact ⟨t, rfl, by simpa [look] using h⟩
  | fault _ => simp [look] at h
  | refused _ => simp [look] at h

/-- The cell at `a`, IP and the fault bit after one step. -/
def after (s : State) (a : Nat) : Option (Word × Word × Bool) :=
  look (fun t => (t.mem.read a, t.ip, t.fault)) (step s)

/-- The latch after one step. -/
def latch (s : State) : Option (Bool × Cause × Word × Word) :=
  look (fun t => (t.fault, t.fcause, t.fip, t.finfo)) (step s)

/-! ### Ill-formed terms -/

/-- R92: a canonical destination digit is 0 or 2, never 1. -/
theorem test_wellFormed_refuses_immediate_destination :
    [Instr.add .positional .positional .immediate, .mul .immediate .immediate .immediate, .inp .immediate,
      .lt .relative .positional .immediate, .eq .positional .relative .immediate].map Instr.wellFormed
      = [false, false, false, false, false] := by decide

/-- R92: an Immediate value parameter is canonical, a Relative destination too. -/
theorem test_wellFormed_accepts :
    [Instr.add .immediate .immediate .relative, .out .immediate, .jt .immediate .immediate, .halt].map
      Instr.wellFormed = [true, true, true, true] := by decide

/-- R83: ADD has three parameter words, HALT none. -/
theorem test_code_refuses_wrong_count :
    [Code.mk (.add .positional .positional .positional) [1, 2], ⟨.halt, [0]⟩, ⟨.out .positional, []⟩].map
      Code.wellFormed = [false, false, false] := by decide

/-! ### Words, digit by digit `C B A O O` -/

/-- R92: "1, 301, 90001 and 100001 are all" ADD with Positional modes; R94: 2 1 1 01. -/
theorem test_decode_add :
    [decode 1, decode 301, decode 90001, decode 100001, decode 21101] =
      [.ok (.add .positional .positional .positional), .ok (.add .positional .positional .positional),
       .ok (.add .positional .positional .positional), .ok (.add .positional .positional .positional),
       .ok (.add .immediate .immediate .relative)] := by decide

/-- R96: 0 1 0 02; P2 of 95_test_vectors.md: 2 1 2 02. -/
theorem test_decode_mul :
    [decode 1002, decode 21202] =
      [.ok (.mul .positional .immediate .positional), .ok (.mul .relative .immediate .relative)] := by decide

/-- 0 0 2 03 and 0 0 1 03; the digits B and C of IN are ignored (R90). -/
theorem test_decode_in :
    [decode 203, decode 103, decode 22003] =
      [.ok (.inp .relative), .ok (.inp .immediate), .ok (.inp .positional)] := by decide

/-- R96 and R90: 11104 is OUT with A = 1. -/
theorem test_decode_out :
    [decode 4, decode 104, decode 204, decode 11104] =
      [.ok (.out .positional), .ok (.out .immediate), .ok (.out .relative), .ok (.out .immediate)] := by decide

/-- R90: 21105 is JT with A = 1, B = 1; 0 2 1 06. -/
theorem test_decode_jumps :
    [decode 21105, decode 2106, decode 1006] =
      [.ok (.jt .immediate .immediate), .ok (.jf .immediate .relative), .ok (.jf .positional .immediate)] := by
  decide

/-- 0 0 2 07 (P2), 1008 (R96), 2 0 1 08. -/
theorem test_decode_compares :
    [decode 207, decode 1008, decode 20108] =
      [.ok (.lt .relative .positional .positional), .ok (.eq .positional .immediate .positional),
       .ok (.eq .immediate .positional .relative)] := by decide

/-- 109 (R96), 0 0 2 09; R90: 199, 1099, 22299 are HALT. -/
theorem test_decode_arb_halt :
    [decode 109, decode 209, decode 99, decode 199, decode 1099, decode 22299] =
      [.ok (.arb .immediate), .ok (.arb .relative), .ok .halt, .ok .halt, .ok .halt, .ok .halt] := by decide

/-- R87, R88: 0, 33, 1100, 10, 98 and every negative word are illegal. -/
theorem test_decode_illegal :
    [decode 0, decode 33, decode 1100, decode 10, decode 98, decode (-1), decode (-99), decode min] =
      [.error (.unknownOpcode 0), .error (.unknownOpcode 33), .error (.unknownOpcode 0),
       .error (.unknownOpcode 10), .error (.unknownOpcode 98), .error .negativeWord, .error .negativeWord,
       .error .negativeWord] := by decide

/-- R94: `10000*c + 1000*b + 100*a + OP`. -/
theorem test_encode :
    [encode (.mul .relative .immediate .relative), encode (.inp .relative), encode (.jf .immediate .relative),
      encode .halt] = [21202, 203, 2106, 99] := by decide

/-! ### One step per instruction -/

/-- R130's example `[1,0,0,0,99]`, and vector A4 (wrap). -/
theorem test_add :
    after (tape [1, 0, 0, 0, 99]) 0 = some (2, 4, false) ∧
    after (tape [1101, max, 1, 0, 99]) 0 = some (min, 4, false) := by decide

/-- Vector O4: a Relative destination, RB = 10. -/
theorem test_add_relative_destination :
    after { tape [109, 10, 21101, 3, 4, -5, 99] with rb := 10, ip := 2 } 5 = some (7, 6, false) := by decide

/-- R131's example `[1002,4,3,4,33]`, and vector M6 (wrap). -/
theorem test_mul :
    after (tape [1002, 4, 3, 4, 33]) 4 = some (99, 4, false) ∧
    after (tape [1102, 3037000500, 3037000500, 0, 99]) 0 = some (-9223372036709301616, 4, false) := by decide

/-- Vectors O5 (`IN #5` writes cell 5) and I10 (the oldest value is taken). -/
theorem test_in_takes_oldest :
    look (fun t => (t.mem.read 5, t.mem.read 1, t.inq, t.ip))
      (step { tape [103, 5, 4, 5, 99, 0] with inq := [42, 2, 3] }) = some (42, 5, [2, 3], 2) := by decide

/-- Vector I7: an empty queue yields before the destination is looked at. -/
theorem test_in_yields :
    look (fun t => (t.status, t.ip, t.fault)) (step (tape [3, -5, 99])) = some (.yielded, 0, false) := by decide

/-- R143's example, with something in OUTQ already. -/
theorem test_out :
    look (fun t => (t.outq, t.ip)) (step { tape [104, 1125899906842624, 99] with outq := [7] }) =
      some ([7, 1125899906842624], 2) := by decide

/-- Vector F12: OUTQ_CAP = 1. -/
theorem test_out_overflows :
    latch { tape [104, 1, 104, 2, 99] with
      ip := 2, outq := [1], cfg := { Config.default with outqCap := some 1 } } =
      some (true, .queueOverflow, 2, 0) := by decide

/-- Vectors J3 and J2. -/
theorem test_jt :
    look State.ip (step (tape [1105, -3, 4, 99])) = some 4 ∧
    look State.ip (step (tape [1105, 0, 4, 99])) = some 3 := by decide

/-- Vectors J4 and J5. -/
theorem test_jf :
    look State.ip (step (tape [1106, 0, 4, 99])) = some 4 ∧
    look State.ip (step (tape [1106, -1, 4, 99])) = some 3 := by decide

/-- Vectors C1 and C2: the comparison is signed. -/
theorem test_lt :
    after (tape [1107, -1, 0, 0, 99]) 0 = some (1, 4, false) ∧
    after (tape [1107, 0, -1, 0, 99]) 0 = some (0, 4, false) := by decide

/-- Vectors C8 and C9. -/
theorem test_eq :
    after (tape [1108, max, max, 0, 99]) 0 = some (1, 4, false) ∧
    after (tape [1108, min, max, 0, 99]) 0 = some (0, 4, false) := by decide

/-- Vector B3, second step: `ARB [RB+1]` reads with the old RB. -/
theorem test_arb :
    look (fun t => (t.rb, t.ip)) (step { tape [109, 3, 209, 1, 99] with rb := 3, ip := 2 }) = some (102, 4) := by
  decide

/-- Vector B6: RB wraps. -/
theorem test_arb_wraps :
    look State.rb (step { tape [109, 1, 99] with rb := max }) = some min := by decide

/-- Vector H1. -/
theorem test_halt :
    look (fun t => (t.status, t.ip, t.outq)) (step (tape [99])) = some (.halted, 1, []) := by decide

/-- Vectors G1 (parameter words beyond the image read 0) and G4. -/
theorem test_beyond_image :
    after (tape [1]) 0 = some (2, 4, false) ∧
    look State.outq (step (tape [4, 1000, 99])) = some [0] := by decide

/-- Vectors F4 and F2. -/
theorem test_illegal_faults :
    latch (tape [-1]) = some (true, .illegalInstruction, 0, -1) ∧
    latch (tape []) = some (true, .illegalInstruction, 0, 0) := by decide

/-- Vectors O7 (the first failing access wins), F10, F11. -/
theorem test_address_faults :
    latch (tape [1, -1, -2, -3, 99]) = some (true, .addressFault, 0, -1) ∧
    latch { tape [1105, 1, -1] with ip := -1 } = some (true, .addressFault, -1, -1) ∧
    latch { tape [4, 16, 99] with cfg := { Config.default with memLimit := some 16 } } =
      some (true, .addressFault, 0, 16) := by
  refine ⟨?_, ?_, ?_⟩ <;> decide

/-- Vector X1's CFG_NOUN_VERB(4,4). -/
theorem test_cfgNounVerb :
    look (fun t => (t.mem.read 0, t.mem.read 1, t.mem.read 2, t.ip)) (step (host [1, 0, 0, 0, 99] [.cfgNounVerb 4 4])) =
      some (1, 4, 4, 0) := by decide

/-- Vectors X7 and X8. -/
theorem test_refusals :
    refusal (step (host [99] [.peek (-1)])) = some (.hostCommand .negativeAddress) ∧
    refusal (step { host [3, 0, 3, 1, 99] [.pushInput 2] with
      inq := [1], cfg := { Config.default with inqCap := some 1 } }) = some (.hostCommand .inputQueueFull) := by
  decide

/-- The interface: a word at the place the next step fetches from, with operand words of zeros. -/
theorem test_withFetchWord :
    decodeTableWord 8 99 = some .halt ∧
    look State.status (step (State.reset.withFetchWord 8 99)) = some .halted ∧
    look (fun t => (t.outq, t.ip)) (step (State.reset.withFetchWord 8 4)) = some ([4], 2) := by decide

/-! ### Witnesses: every statement's hypotheses are met -/

/-- A tape of small instructions meets the invariant. -/
theorem tape_inv : Inv (tape [1101, 1, 1, 0, 99]) :=
  ⟨by decide, fun _ => ⟨rfl, rfl, rfl⟩, fun h => by simp [tape, State.reset] at h,
    fun _ => ⟨by decide, fun _ h => by simp [tape, State.reset, Config.default] at h, fun h => by simp [tape, State.reset] at h,
      fun _ h => by simp [tape, State.reset, Config.default] at h, fun _ h => by simp [tape, State.reset, Config.default] at h⟩⟩

/-- StepKeepsInvariant, StepRunsDecodedInstruction. -/
theorem witness_step :
    let s := tape [1101, 1, 1, 0, 99]
    (∃ t, step s = .next t ∧ t.fault = false) ∧ Inv s ∧ CoreMoves s ∧ validAddr s.cfg s.ip = true ∧
      decode (cellAt s s.ip) = .ok (.add .immediate .immediate .positional) :=
  ⟨next_with _ (by decide), tape_inv, ⟨rfl, rfl, rfl⟩, by decide, by decide⟩

/-- The memory may be in canonical form with the latch set, too. -/
theorem witness_inv_faulted : Inv { tape [] with fault := true, fcause := .addressFault } :=
  ⟨by decide, fun h => by simp at h, fun _ => by simp, fun h => by simp at h⟩

/-- No command of a list without LOAD at its head is a LOAD. -/
theorem not_load {s : State} {c : HostCommand} {cs : List HostCommand} (hp : s.pending = c :: cs)
    (hc : ∀ image, c ≠ .load image) : ¬ LoadIssued s := by
  rintro ⟨image, _, rest, h⟩
  rw [hp] at h
  exact hc image (List.cons.inj h).1

/-- CoreStepsOnlyInsideRun: in a RUN, in a RUN that is over, with no command, with one. -/
theorem witness_coreSteps :
    CoreMoves (tape [99]) ∧
    (let s := { tape [99] with status := .yielded }; s.runActive = true ∧ ¬ CoreMoves s) ∧
    (State.reset.runActive = false ∧ State.reset.pending = []) ∧
    (host [99] [.run]).runActive = false ∧ (host [99] [.run]).fault = false ∧ ¬ LoadIssued (host [99] [.run]) ∧
      ∃ t, step (host [99] [.run]) = .next t ∧ t.runActive = true :=
  ⟨⟨rfl, rfl, rfl⟩, ⟨rfl, fun h => by simp [CoreMoves] at h⟩, ⟨rfl, rfl⟩, rfl, rfl, not_load rfl (by simp), next_with _ (by decide)⟩

/-- DecodeIsTotalByFields, ModeDigitsDecode, HighDigitsIgnored, CanonicalWordIsLeast: the largest word
(its last digits are 7 5 8 07) and 21101. -/
theorem witness_decode :
    0 ≤ max.toInt ∧ max.toNat % 100 ∈ opcodes ∧
    decode max = .ok (.lt .positional .positional .positional) ∧
    decode 21101 = .ok (.add .immediate .immediate .relative) ∧
    (Instr.add .immediate .immediate .relative).modes[0]? = some .immediate ∧
    (Instr.add .immediate .immediate .relative).modes[2]? = some .relative ∧
    (Instr.lt .positional .positional .positional).modes[1]? = some .positional := by decide

/-- DecodeOfEncode: the cells of `MUL [RB+5],#6,[RB-50]`, followed by others. -/
theorem witness_roundTrip :
    let c : Code := ⟨.mul .relative .immediate .relative, [5, 6, -50]⟩
    c.params.length = c.instr.paramCount ∧ assemble c = [21202, 5, 6, -50] := by decide

/-- The three-parameter instructions complete: at address 0, and with the last valid cell as destination. -/
theorem witness_storing :
    AccessesValid (tape [1, 0, 0, 0, 99]) (.add .positional .positional .positional) ∧
    AccessesValid (tape [1102, -7, 6, 0, 99]) (.mul .immediate .immediate .positional) ∧
    AccessesValid { tape [207, 5, 50, 15] with rb := 10, cfg := { Config.default with memLimit := some 51 } }
      (.lt .relative .positional .positional) ∧
    AccessesValid (tape [21108, 1, 2, 9223372036854775807]) (.eq .immediate .immediate .relative) := by
  refine ⟨?_, ?_, ?_, ?_⟩ <;> exact (accessesValid_iff _ _).2 (by decide)

/-- ArithmeticExactOrCongruent: sums and products inside Int64 and outside it. -/
theorem witness_arithmetic :
    ((valueOf (tape [1101, 2, 3, 0]) 1 .immediate).toInt + (valueOf (tape [1101, 2, 3, 0]) 2 .immediate).toInt = 5 ∧
      AccessesValid (tape [1101, 2, 3, 0]) (.add .immediate .immediate .positional)) ∧
    ((valueOf (tape [1102, max, 2, 0]) 1 .immediate).toInt * (valueOf (tape [1102, max, 2, 0]) 2 .immediate).toInt
        = 18446744073709551614 ∧
      AccessesValid (tape [1102, max, 2, 0]) (.mul .immediate .immediate .positional)) ∧
    AccessesValid { tape [109, 1] with rb := max } (.arb .immediate) := by
  refine ⟨⟨by decide, ?_⟩, ⟨by decide, ?_⟩, ?_⟩ <;> exact (accessesValid_iff _ _).2 (by decide)

/-- FaultsFirst, in LT, EQ, IN, OUT and FirstInvalidAccessFaults: a first invalid access. -/
theorem witness_faultsFirst :
    firstInvalid (tape [7, -1, -2, 0]).cfg (accesses (tape [7, -1, -2, 0]) (.lt .positional .positional .positional)) = some (-1) ∧
    firstInvalid (tape [1108, 1, 1, -3]).cfg (accesses (tape [1108, 1, 1, -3]) (.eq .immediate .immediate .positional)) = some (-3) ∧
    (let s := { tape [3, -5, 99] with inq := [9] }; firstInvalid s.cfg (accesses s (.inp .positional)) = some (-5)) ∧
    (let s := { tape [4, 16, 99] with cfg := { Config.default with memLimit := some 16 } };
      firstInvalid s.cfg (accesses s (.out .positional)) = some 16) := by decide

/-- InputStoresOldestOrYields: an empty queue; a value and a destination. -/
theorem witness_in :
    (tape [3, 0]).inq = [] ∧
    (let s := { tape [3, 0] with inq := [1, 2] }; s.inq = 1 :: [2] ∧ AccessesValid s (.inp .positional)) := by
  refine ⟨rfl, rfl, ?_⟩
  exact (accessesValid_iff _ _).2 (by decide)

/-- OutputAppendsOrOverflows: below the capacity, at it, and without one. -/
theorem witness_out :
    (∃ s, AccessesValid s (.out .immediate) ∧ s.cfg.outqCap ≠ some s.outq.length ∧ s.cfg.outqCap = some 1) ∧
    (∃ s, AccessesValid s (.out .immediate) ∧ s.cfg.outqCap = some s.outq.length) ∧
    (∃ s, AccessesValid s (.out .relative) ∧ s.cfg.outqCap ≠ some s.outq.length) :=
  ⟨⟨{ tape [104, 1] with cfg := { Config.default with outqCap := some 1 } }, (accessesValid_iff _ _).2 (by decide), by decide, rfl⟩,
   ⟨{ tape [104, 1] with outq := [5], cfg := { Config.default with outqCap := some 1 } }, (accessesValid_iff _ _).2 (by decide), rfl⟩,
   ⟨{ tape [204, -1] with rb := 1 }, (accessesValid_iff _ _).2 (by decide), by decide⟩⟩

/-- JumpIfTrueSetsIp, JumpIfFalseSetsIp, ArbAddsToBase: taken and not taken. -/
theorem witness_jumps_arb :
    (AccessesValid (tape [1105, 1, 0]) (.jt .immediate .immediate) ∧ valueOf (tape [1105, 1, 0]) 1 .immediate ≠ 0) ∧
    (AccessesValid (tape [6, 2, 4, 0, 9]) (.jf .positional .positional) ∧ valueOf (tape [6, 2, 4, 0, 9]) 1 .positional ≠ 0) ∧
    (AccessesValid (tape [1106, 0, 4]) (.jf .immediate .immediate) ∧ valueOf (tape [1106, 0, 4]) 1 .immediate = 0) ∧
    AccessesValid (tape [9, 0, 99]) (.arb .positional) := by
  refine ⟨⟨?_, by decide⟩, ⟨?_, by decide⟩, ⟨?_, by decide⟩, ?_⟩ <;> exact (accessesValid_iff _ _).2 (by decide)

/-- ImmediateDestinationIsPositional: vector O2, and IN with a value. -/
theorem witness_immediateDestination :
    (let s := tape [11101, 2, 4, 5, 99, 0];
      storedValue s (.add .immediate .immediate .immediate) = some 6 ∧
      AccessesValid s (.add .immediate .immediate .immediate)) ∧
    (let s := { tape [103, 5] with inq := [42] };
      storedValue s (.inp .immediate) = some 42 ∧ AccessesValid s (.inp .immediate)) := by
  refine ⟨⟨by decide, ?_⟩, by decide, ?_⟩ <;> exact (accessesValid_iff _ _).2 (by decide)

/-- NormalAdvance: IN with a value, JT and JF not taken, HALT. -/
theorem witness_normalAdvance :
    (let s := { tape [3, 0] with inq := [1] };
      (∃ t, exec (.inp .positional) s = .next t ∧ t.fault = false) ∧ s.inq ≠ []) ∧
    ((∃ t, exec (.jt .immediate .immediate) (tape [1105, 0, 4]) = .next t ∧ t.fault = false) ∧
      valueOf (tape [1105, 0, 4]) 1 .immediate = 0) ∧
    ((∃ t, exec (.jf .immediate .immediate) (tape [1106, 5, 4]) = .next t ∧ t.fault = false) ∧
      valueOf (tape [1106, 5, 4]) 1 .immediate ≠ 0) ∧
    ∃ t, exec .halt { tape [] with ip := max } = .next t ∧ t.fault = false :=
  ⟨⟨next_with _ (by decide), by decide⟩, ⟨next_with _ (by decide), by decide⟩, ⟨next_with _ (by decide), by decide⟩,
    next_with _ (by decide)⟩

/-- MemoryWrittenOnlyAtDestination, QueueOrder, GrowthCoversAccesses: a storing instruction, and each queue moved. -/
theorem witness_exec_next :
    (∃ t, exec (.add .positional .positional .positional) (tape [1, 0, 0, 0, 99]) = .next t ∧ t.fault = false) ∧
    (∃ t, exec (.inp .positional) { tape [3, 0] with inq := [1] } = .next t ∧ t.fault = false ∧ t.inq = []) ∧
    (∃ t, exec (.out .immediate) (tape [104, 1]) = .next t ∧ t.fault = false ∧ t.outq = [1]) :=
  ⟨next_with _ (by decide), next_with _ (by decide), next_with _ (by decide)⟩

/-- BaseOnlyInRelativeMode: an ADD without a Relative parameter, completing and faulting. -/
theorem witness_base :
    (∀ m ∈ (Instr.add .immediate .positional .positional).modes, m ≠ .relative) ∧
      (∀ m, Instr.add .immediate .positional .positional ≠ .arb m) ∧
      (∃ t, exec (.add .immediate .positional .positional) (tape [101, 5, 0, 0]) = .next t ∧ t.fault = false) ∧
      ∃ t, exec (.add .immediate .positional .positional) (tape [101, 5, 0, -1]) = .next t ∧ t.fault = true :=
  ⟨by decide, by simp, next_with _ (by decide), next_with _ (by decide)⟩

/-- GrowthCoversAccesses: `ADD [100],[150],[0]` on a tape of 5 cells; the access to 100 grows it beyond 150. -/
theorem witness_growth :
    CoreMoves (tape [1, 100, 150, 0, 99]) ∧
    (∃ t, exec (.add .positional .positional .positional) (tape [1, 100, 150, 0, 99]) = .next t ∧ t.fault = false) ∧
    decode (cellAt (tape [1, 100, 150, 0, 99]) 0) = .ok (.add .positional .positional .positional) ∧
    ∃ t, step (tape [1, 100, 150, 0, 99]) = .next t ∧ t.fault = false :=
  ⟨⟨rfl, rfl, rfl⟩, next_with _ (by decide), by decide, next_with _ (by decide)⟩

/-- R52: an access to 2 on 5 cells leaves the length, one to 5 raises it to 11 at least, and then one to 9
leaves it. -/
theorem test_growsTo : GrowsTo 5 [2, 5, 9] 11 ∧ ¬ GrowsTo 5 [5] 10 :=
  ⟨⟨5, by decide, 11, by decide, 11, by decide, rfl⟩, by
    rintro ⟨k, hk, rfl⟩
    simp at hk⟩

/-- What StoreSeenByNextFetch assumes of an instruction whose destination is Positional. -/
def StoresOverNext (s : State) (i : Instr) (v : Word) : Prop :=
  CoreMoves s ∧ AccessesValid s i ∧ i.destMode = some .positional ∧ storedValue s i = some v ∧
    destAddr s i.paramCount .positional = wrap64 (s.ip.toInt + 1 + i.paramCount)

/-- StoreSeenByNextFetch: program P4's ADD (stores 104), R63's MUL (99), vector I5's IN (104), an LT that
stores ADD's word 1, an EQ that stores the illegal word 0. -/
theorem witness_storeSeen :
    StoresOverNext (tape [1101, 100, 4, 4, 0, 1, 99]) (.add .immediate .immediate .positional) 104 ∧
    StoresOverNext (tape [1002, 4, 3, 4, 33]) (.mul .positional .immediate .positional) 99 ∧
    StoresOverNext { tape [3, 2, 0, 0, 99] with inq := [104] } (.inp .positional) 104 ∧
    StoresOverNext (tape [1107, 1, 2, 4, 0]) (.lt .immediate .immediate .positional) 1 ∧
    StoresOverNext (tape [1108, 1, 2, 4, 99]) (.eq .immediate .immediate .positional) 0 ∧
    decode 104 = .ok (.out .immediate) ∧ decode 0 = .error (.unknownOpcode 0) := by
  refine ⟨⟨⟨rfl, rfl, rfl⟩, ?_⟩, ⟨⟨rfl, rfl, rfl⟩, ?_⟩, ⟨⟨rfl, rfl, rfl⟩, ?_⟩, ⟨⟨rfl, rfl, rfl⟩, ?_⟩,
    ⟨⟨rfl, rfl, rfl⟩, ?_⟩, by decide, by decide⟩ <;>
    exact ⟨(accessesValid_iff _ _).2 (by decide), by decide, by decide, by decide⟩

/-- FetchFaults, IllegalWordFaults: IP = -1, IP = MEM_LIMIT; a negative word, the word 0, the word 98. -/
theorem witness_fetch :
    (let s := { tape [] with ip := -1 }; CoreMoves s ∧ validAddr s.cfg s.ip = false) ∧
    (let s := { tape [] with ip := 16, cfg := { Config.default with memLimit := some 16 } };
      CoreMoves s ∧ validAddr s.cfg s.ip = false) ∧
    (CoreMoves (tape [-99]) ∧ validAddr (tape [-99]).cfg 0 = true ∧ (cellAt (tape [-99]) 0).toInt < 0) ∧
    (CoreMoves (tape []) ∧ (cellAt (tape []) 0).toNat % 100 ∉ opcodes) ∧
    (CoreMoves (tape [98]) ∧ (cellAt (tape [98]) 0).toNat % 100 ∉ opcodes) :=
  ⟨⟨⟨rfl, rfl, rfl⟩, by decide⟩, ⟨⟨rfl, rfl, rfl⟩, by decide⟩, ⟨⟨rfl, rfl, rfl⟩, by decide, by decide⟩,
    ⟨⟨rfl, rfl, rfl⟩, by decide⟩, ⟨rfl, rfl, rfl⟩, by decide⟩

/-- FaultLatchIsSticky, FaultedMachineRefusesCommands: a faulted machine inside its RUN and after it. -/
theorem witness_faulted :
    (let s := { tape [33] with fault := true, fcause := .illegalInstruction, finfo := 33 };
      (∃ t, step s = .next t ∧ t.runActive = false) ∧ s.fault = true ∧ ¬ LoadIssued s) ∧
    (let s := { host [33] [.readStatus] with fault := true, fcause := .illegalInstruction, finfo := 33 };
      (∃ t, step s = .next t ∧ t.replies = [.status 0 1 1 0 33]) ∧ ¬ LoadIssued s ∧ HostIssues s .readStatus) ∧
    (let s := { host [33] [.run] with fault := true, fcause := .illegalInstruction, finfo := 33 };
      s.fault = true ∧ HostIssues s .run) :=
  ⟨⟨next_with _ (by decide), rfl, fun ⟨_, h, _⟩ => by simp [tape] at h⟩,
   ⟨next_with _ (by decide), not_load rfl (by simp), rfl, _, rfl⟩, rfl, rfl, _, rfl⟩

/-- BaseChangesOnlyByArb, LenNeverShrinks, ParametersNeverChange: `ARB #5` changes RB. -/
theorem witness_arb_step :
    (∃ t, step (tape [109, 5, 99]) = .next t ∧ t.fault = false ∧ t.rb = 5) ∧ ¬ LoadIssued (tape [109, 5, 99]) :=
  ⟨next_with _ (by decide), fun ⟨_, h, _⟩ => by simp [tape] at h⟩

/-- StatusTransitions: each case occurs. -/
theorem witness_status :
    (look State.status (step { host [] [.load [1]] with status := .halted }) = some .running ∧
      look State.status (step (tape [99])) = some .halted ∧
      look State.status (step (tape [3])) = some .yielded) ∧
    (look State.status (step { host [3] [.run] with status := .yielded }) = some .running ∧
      look State.status (step { host [3] [.pushInput 1] with status := .yielded }) = some .running ∧
      look State.status (step { host [3] [.seedInput [1, 2]] with status := .yielded }) = some .running) := by
  refine ⟨?_, ?_⟩ <;> decide

/-- HaltedIsAbsorbing: a RUN, and a command that writes, on a Halted machine. -/
theorem witness_halted :
    (let s := { host [99] [.run] with status := .halted };
      (∃ t, step s = .next t ∧ t.status = .halted) ∧ s.fault = false ∧ ¬ LoadIssued s ∧ HostIssues s .run) ∧
    (let s := { host [99] [.cfgCell0 5] with status := .halted };
      (∃ t, step s = .next t ∧ t.mem.read 0 = 5) ∧ s.fault = false ∧ ¬ LoadIssued s) :=
  ⟨⟨next_with _ (by decide), rfl, not_load rfl (by simp), rfl, _, rfl⟩,
   next_with _ (by decide), rfl, not_load rfl (by simp)⟩

/-- HostReachIsLimited: CFG_NOUN_VERB on a running and PUSH_INPUT on a Halted machine. -/
theorem witness_hostReach :
    (let s := host [1, 0, 0] [.cfgNounVerb 4 4];
      (∃ t, step s = .next t ∧ t.fault = false) ∧ s.fault = false ∧ HostIssues s (.cfgNounVerb 4 4)) ∧
    (let s := { host [99] [.pushInput 7] with status := .halted };
      (∃ t, step s = .next t ∧ t.inq = []) ∧ s.fault = false ∧ HostIssues s (.pushInput 7)) :=
  ⟨⟨next_with _ (by decide), rfl, rfl, _, rfl⟩, next_with _ (by decide), rfl, rfl, _, rfl⟩

/-- LoadSetsEverything: an image of exactly MEM_LIMIT cells, and one a cell longer. -/
theorem witness_load :
    let limit : Config := { Config.default with memLimit := some 1 }
    look (fun t => (t.len, t.mem.read 0)) (step { host [] [.load [5]] with cfg := limit }) = some (1, 5) ∧
    refusal (step { host [] [.load [5, 6]] with cfg := limit }) = some (.hostCommand .imageTooLong) := by
  decide

/-- PushInputByStatus, SeedInputPushesInOrder: up to the capacity, beyond it, and on a Halted machine. -/
theorem witness_input :
    let cap : Config := { Config.default with inqCap := some 2 }
    (look State.inq (step { host [3] [.pushInput 7] with inq := [1], cfg := cap }) = some [1, 7] ∧
      refusal (step { host [3] [.pushInput 7] with inq := [1, 2], cfg := cap }) = some (.hostCommand .inputQueueFull) ∧
      look State.inq (step { host [3] [.pushInput 7] with inq := [1, 2], cfg := cap, status := .halted }) = some [1, 2]) ∧
    (look State.inq (step { host [3] [.seedInput [7]] with inq := [1], cfg := cap }) = some [1, 7] ∧
      refusal (step { host [3] [.seedInput [7, 8]] with inq := [1], cfg := cap }) = some (.hostCommand .inputQueueFull) ∧
      look State.status (step { host [3] [.seedInput []] with status := .yielded }) = some .yielded ∧
      look State.inq (step { host [3] [.seedInput [7, 8]] with inq := [1], cfg := cap, status := .halted }) = some [1]) := by
  refine ⟨?_, ?_⟩ <;> decide

/-- ConfigCommandsWriteCells: MEM_LIMIT at and below the bound of each command. -/
theorem witness_config :
    let limit : Nat → Config := fun n => { Config.default with memLimit := some n }
    (look (fun t => t.mem.read 0) (step { host [] [.cfgCell0 99] with cfg := limit 1 }) = some 99 ∧
      refusal (step { host [] [.cfgCell0 99] with cfg := limit 0 }) = some (.hostCommand .cellsBeyondLimit)) ∧
    (look (fun t => (t.mem.read 1, t.mem.read 2)) (step { host [] [.cfgNounVerb 4 5] with cfg := limit 3 }) = some (4, 5) ∧
      refusal (step { host [] [.cfgNounVerb 4 5] with cfg := limit 2 }) = some (.hostCommand .cellsBeyondLimit)) := by
  refine ⟨?_, ?_⟩ <;> decide

/-- RunStarts, ReadCommandsAnswer: a RUN on a Halted and on a Yielded machine; each read command. -/
theorem witness_run_read :
    (look (fun t => (t.status, t.runActive, t.outq)) (step { host [99] [.run] with status := .halted, outq := [1] }) =
        some (.halted, false, []) ∧
      look (fun t => (t.status, t.runActive)) (step { host [3] [.run] with status := .yielded }) = some (.running, true)) ∧
    (look State.replies (step { host [99] [.readStatus] with status := .halted }) = some [.status 2 0 0 0 0] ∧
      look State.replies (step { host [99] [.readOutput] with outq := [4, 5] }) = some [.output [4, 5]]) ∧
    (look State.replies (step { host [198] [.peek 0] with cfg := { Config.default with memLimit := some 1 } }) =
        some [.cell 198] ∧
      refusal (step { host [198] [.peek 1] with cfg := { Config.default with memLimit := some 1 } }) =
        some (.hostCommand .addressBeyondLimit)) := by
  refine ⟨?_, ?_, ?_⟩ <;> decide

/-- YieldResumes: the source's `[3,0,4,0,99]` after its yield, then PUSH_INPUT(1234) and RUN. -/
theorem witness_resume :
    let s := { host [3, 0, 4, 0, 99] [.pushInput 1234, .run] with status := .yielded }
    s.runActive = false ∧ s.fault = false ∧ s.status = .yielded ∧ s.pending = [.pushInput 1234, .run] ∧
      s.cfg.inqCap = none ∧ validAddr s.cfg s.ip = true ∧ decode (cellAt s s.ip) = .ok (.inp .positional) := by decide

/-- FinalRunNeverFaulted: HALT, then the return of the RUN. -/
theorem witness_final :
    ∃ t u, Reaches (tape [99]) t ∧ Reaches t u ∧ HaltedFinally u := by
  have no_load : ∀ s : State, s.runActive = true → ¬ LoadIssued s := by
    rintro s ha ⟨_, hb, _⟩
    simp [ha] at hb
  obtain ⟨t, ht, hr, hs, hf⟩ := next_with (o := step (tape [99]))
    (fun t => t.runActive = true ∧ t.status = .halted ∧ t.fault = false) (by decide)
  have hm : mayStep t = false := by simp [mayStep, hs]
  have hu : step t = .next (endRun t) := by simp [step, turn, hr, hm]
  exact ⟨t, endRun t, .tail .refl (no_load _ rfl) ht, .tail .refl (no_load _ hr) hu, hs, hf, rfl⟩

/-- ModesReadIndependently, LengthByOpcodeAlone: 21101 and 1105 share digit A, 21101 and 1 the opcode;
with the fewest cells that hold the instruction. -/
theorem witness_digits :
    decode 21101 = .ok (.add .immediate .immediate .relative) ∧ decode 1105 = .ok (.jt .immediate .immediate) ∧
    decode 1 = .ok (.add .positional .positional .positional) ∧
    (21101 : Word).toNat / 10 ^ 2 % 10 = (1105 : Word).toNat / 10 ^ 2 % 10 ∧
    (21101 : Word).toNat % 100 = (1 : Word).toNat % 100 ∧
    (Instr.add .immediate .immediate .relative).length = 1 + [(7 : Word), 8, 9].length ∧
    Instr.halt.length = 1 + ([] : List Word).length := by decide

/-- EveryModeDigitDecodes, in ModeDigitsDecode and ModesReadIndependently: the largest mode digits of the
longest, the shortest and a middle format, and two words whose digits B and A agree. -/
theorem witness_modeDigits :
    formats.map Prod.fst = opcodes ∧
    ((7, 3) ∈ formats ∧ (99907 : Word).toNat % 100 = 7 ∧ (99907 : Word).toNat < 10 ^ (3 + 2)) ∧
    ((99, 0) ∈ formats ∧ (99 : Word).toNat % 100 = 99 ∧ (99 : Word).toNat < 10 ^ (0 + 2)) ∧
    ((5, 2) ∈ formats ∧ (9305 : Word).toNat % 100 = 5 ∧ (9305 : Word).toNat < 10 ^ (2 + 2)) ∧
    (decode 2106 = .ok (.jf .immediate .relative) ∧ decode 203 = .ok (.inp .relative) ∧
      (2106 : Word).toNat / 10 ^ (1 + 2) % 10 = (203 : Word).toNat / 10 ^ (0 + 2) % 10) := by
  refine ⟨by decide, ?_, ?_, ?_, ?_⟩ <;> decide

/-- R81: digits 3 and 9 are Positional. -/
theorem test_decode_unrecognized_digits :
    [decode 99907, decode 9305, decode 303] =
      [.ok (.lt .positional .positional .positional), .ok (.jt .positional .positional), .ok (.inp .positional)] := by
  decide

/-- A faulted machine's registers are no part of what a claim may read (R214). -/
theorem test_sameOutcome_faulted :
    SameOutcome (.next { tape [33] with fault := true, fcause := .illegalInstruction, finfo := 33 })
      (.next { tape [33] with fault := true, fcause := .illegalInstruction, finfo := 33, ip := 7, rb := 1, inq := [5] }) :=
  rfl

end Sys2Proof.Tests
end

section
/-! PROOFS. The decoder (spec/30_encoding.md R81 to R84): what a decoded word is, said once, and the
statements on mode digits and lengths derived from it. -/

namespace Sys2Proof

open Sys2Proof.Machine

/-- The mode of the `k`-th parameter, by rule R81 of decimal digit `k + 2` alone (R80, R82). -/
def paramMode (w : Word) (k : Nat) : Mode := modeOfDigit (w.toNat / 10 ^ (k + 2) % 10)

/-- What a non-negative word `w` can decode to: one instruction per opcode, its modes those of the digits. -/
inductive DecodeCase (w : Word) : Instr → Prop where
  | add (hop : w.toNat % 100 = 1) : DecodeCase w (.add (paramMode w 0) (paramMode w 1) (paramMode w 2))
  | mul (hop : w.toNat % 100 = 2) : DecodeCase w (.mul (paramMode w 0) (paramMode w 1) (paramMode w 2))
  | inp (hop : w.toNat % 100 = 3) : DecodeCase w (.inp (paramMode w 0))
  | out (hop : w.toNat % 100 = 4) : DecodeCase w (.out (paramMode w 0))
  | jt (hop : w.toNat % 100 = 5) : DecodeCase w (.jt (paramMode w 0) (paramMode w 1))
  | jf (hop : w.toNat % 100 = 6) : DecodeCase w (.jf (paramMode w 0) (paramMode w 1))
  | lt (hop : w.toNat % 100 = 7) : DecodeCase w (.lt (paramMode w 0) (paramMode w 1) (paramMode w 2))
  | eq (hop : w.toNat % 100 = 8) : DecodeCase w (.eq (paramMode w 0) (paramMode w 1) (paramMode w 2))
  | arb (hop : w.toNat % 100 = 9) : DecodeCase w (.arb (paramMode w 0))
  | halt (hop : w.toNat % 100 = 99) : DecodeCase w .halt

/-! ### The decoder -/

theorem decode_of_nonneg {w : Word} (h : 0 ≤ w.toInt) : decode w = decodeNat w.toNat :=
  if_neg (by omega)

theorem nonneg_of_decode {w : Word} {i : Instr} (h : decode w = .ok i) : 0 ≤ w.toInt := by
  by_contra hneg
  rw [decode, if_pos (by omega)] at h
  cases h

/-- The decoder inverted: an instruction comes only from a word with its opcode and its mode digits. -/
theorem decode_cases {w : Word} {i : Instr} (h : decode w = .ok i) : DecodeCase w i := by
  rw [decode_of_nonneg (nonneg_of_decode h), decodeNat] at h
  split at h <;> cases h
  case h_1 hop => exact .add hop
  case h_2 hop => exact .mul hop
  case h_3 hop => exact .inp hop
  case h_4 hop => exact .out hop
  case h_5 hop => exact .jt hop
  case h_6 hop => exact .jf hop
  case h_7 hop => exact .lt hop
  case h_8 hop => exact .eq hop
  case h_9 hop => exact .arb hop
  case h_10 hop => exact .halt hop

theorem decode_of_case {w : Word} {i : Instr} (hw : 0 ≤ w.toInt) (h : DecodeCase w i) : decode w = .ok i := by
  rw [decode_of_nonneg hw, decodeNat]
  cases h <;> rename_i hop <;> rw [hop] <;> rfl

theorem DecodeCase.exists_of_opcode {w : Word} (h : w.toNat % 100 ∈ opcodes) : ∃ i, DecodeCase w i := by
  simp only [opcodes, List.mem_cons, List.not_mem_nil, or_false] at h
  obtain h | h | h | h | h | h | h | h | h | h := h
  · exact ⟨_, .add h⟩
  · exact ⟨_, .mul h⟩
  · exact ⟨_, .inp h⟩
  · exact ⟨_, .out h⟩
  · exact ⟨_, .jt h⟩
  · exact ⟨_, .jf h⟩
  · exact ⟨_, .lt h⟩
  · exact ⟨_, .eq h⟩
  · exact ⟨_, .arb h⟩
  · exact ⟨_, .halt h⟩

/-! ### The fields of a decoded word -/

theorem opcode_of_decode {w : Word} {i : Instr} (h : decode w = .ok i) : opcode i = w.toNat % 100 := by
  cases decode_cases h <;> exact Eq.symm ‹_›

theorem modes_of_decode {w : Word} {i : Instr} (h : decode w = .ok i) :
    i.modes = (List.range i.paramCount).map (paramMode w) := by
  cases decode_cases h <;> rfl

theorem mode_of_decode {w : Word} {i : Instr} {k : Nat} {m : Mode} (h : decode w = .ok i)
    (hm : i.modes[k]? = some m) : m = modeOfDigit (w.toNat / 10 ^ (k + 2) % 10) := by
  rw [modes_of_decode h, List.getElem?_map, Option.map_eq_some_iff] at hm
  obtain ⟨k', hk, rfl⟩ := hm
  obtain ⟨-, rfl⟩ := List.getElem?_eq_some_iff.1 hk
  rw [List.getElem_range, paramMode]

theorem modeOf_modeOfDigit (d : Nat) : ModeOf d (modeOfDigit d) := by
  unfold ModeOf modeOfDigit
  split
  next h1 => simp [h1]
  next h1 =>
    split
    next h2 => simp [h2]
    next h2 => simp [h1, h2]

theorem modeOf_of_decode {w : Word} {i : Instr} {k : Nat} {m : Mode} (h : decode w = .ok i)
    (hm : i.modes[k]? = some m) : ModeOf (w.toNat / 10 ^ (k + 2) % 10) m :=
  mode_of_decode h hm ▸ modeOf_modeOfDigit _

/-! ### The format by the opcode -/

theorem modes_length (i : Instr) : i.modes.length = i.paramCount := by cases i <;> rfl

theorem format_mem_formats (i : Instr) : (opcode i, i.paramCount) ∈ formats := by
  cases i <;> simp [formats, opcode, Instr.paramCount]

theorem opcode_mem_of_format {f : Nat × Nat} (hf : f ∈ formats) : f.1 ∈ opcodes := by
  revert f
  decide

/-- The table of formats has one line per opcode. -/
theorem formats_functional : ∀ f ∈ formats, ∀ g ∈ formats, f.1 = g.1 → f.2 = g.2 := by decide

theorem paramCount_of_opcode {i : Instr} {f : Nat × Nat} (hf : f ∈ formats) (h : opcode i = f.1) :
    i.paramCount = f.2 :=
  formats_functional _ (format_mem_formats i) f hf h

theorem destMode_isSome_iff (i : Instr) : i.destMode.isSome = true ↔ opcode i ∈ [1, 2, 3, 7, 8] := by
  cases i <;> simp [opcode, Instr.destMode]

theorem length_of_opcode (i : Instr) :
    i.length = if opcode i ∈ [1, 2, 7, 8] then 4 else if opcode i ∈ [5, 6] then 3
      else if opcode i ∈ [3, 4, 9] then 2 else 1 := by
  cases i <;> rfl

/-- A word below 2^63 is its own integer. -/
theorem toInt_nonneg_of_lt {w : Word} (h : w.toNat < 2 ^ 63) : 0 ≤ w.toInt := by
  rw [BitVec.toInt_eq_toNat_of_lt (by omega)]
  exact Int.natCast_nonneg _

theorem everyModeDigitDecodes : EveryModeDigitDecodes := by
  intro f hf w hop hlt
  have hbound : ∀ g ∈ formats, 10 ^ (g.2 + 2) ≤ 2 ^ 63 := by decide
  have hw : 0 ≤ w.toInt := toInt_nonneg_of_lt (hlt.trans_le (hbound f hf))
  obtain ⟨i, hi⟩ := DecodeCase.exists_of_opcode (hop ▸ opcode_mem_of_format hf)
  have hd : decode w = .ok i := decode_of_case hw hi
  exact ⟨i, hd, by rw [modes_length, paramCount_of_opcode hf ((opcode_of_decode hd).trans hop)]⟩

/-! ### Reading an instruction from cells -/

theorem disassemble_cons {w : Word} {i : Instr} {cells : List Word} (h : decode w = .ok i)
    (hlen : i.paramCount ≤ cells.length) :
    disassemble (w :: cells) = .ok (⟨i, cells.take i.paramCount⟩, cells.drop i.paramCount) := by
  rw [disassemble, h]
  exact if_neg (Nat.not_lt.2 hlen)

/-! ### The statements -/

/-- Settles O9: a parameter's mode is R81's of its digit, and every opcode decodes under all mode digits. -/
theorem modeDigitsDecode : Obligations.ModeDigitsDecode :=
  ⟨everyModeDigitDecodes, fun _ _ _ _ => modeOf_of_decode⟩

/-- Settles O51: each mode is a function of its own digit, and the format a function of the opcode. -/
theorem modesReadIndependently : Obligations.ModesReadIndependently := by
  refine ⟨?_, everyModeDigitDecodes, fun w w' i i' h h' => ⟨fun _ _ => modeOf_of_decode h, ?_, ?_⟩⟩
  · have one_of_each : decode 3 = .ok (.inp .positional) ∧
        decode 5 = .ok (.jt .positional .positional) ∧
        decode 1 = .ok (.add .positional .positional .positional) := by decide
    obtain ⟨h1, h2, h3⟩ := one_of_each
    simp only [List.forall_mem_cons]
    exact ⟨⟨_, _, h1, rfl⟩, ⟨_, _, h2, rfl⟩, ⟨_, _, h3, rfl⟩, by simp⟩
  · intro k k' m m' hdigit hm hm'
    rw [mode_of_decode h hm, mode_of_decode h' hm', hdigit]
  · intro hop
    have same : opcode i = opcode i' := by rw [opcode_of_decode h, opcode_of_decode h', hop]
    constructor
    · rw [modes_length, modes_length, paramCount_of_opcode (format_mem_formats i') same]
    · rw [Bool.eq_iff_iff, destMode_isSome_iff, destMode_isSome_iff, same]

/-- Settles O52: the length is read off the opcode, and `disassemble` takes one cell per parameter. -/
theorem lengthByOpcodeAlone : Obligations.LengthByOpcodeAlone := by
  intro w i h
  refine ⟨opcode_of_decode h ▸ length_of_opcode i, fun cells hlen => ?_⟩
  have hcells : i.paramCount ≤ cells.length := Nat.add_le_add_iff_left.1 hlen
  refine ⟨_, _, disassemble_cons h hcells, rfl, ?_, List.take_append_drop _ _⟩
  rw [List.length_take_of_le hcells, Instr.length]

end Sys2Proof
end

section
/-! PROOFS. Operand resolution (spec/40_operand_resolution.md R119 to R121): where an instruction that goes
on leaves IP, and the one condition under which CORE steps. -/

namespace Sys2Proof

open Sys2Proof.Machine

/-! ### IP after an instruction -/

theorem effect_of_exec {i : Instr} {s t : State} (h : exec i s = .next t) : Effect i s t := by
  obtain ⟨u, hu, he⟩ := exec_effect i s
  obtain rfl : u = t := by simpa [hu] using h
  exact he

/-- The cell after the last parameter, as R119 writes it. -/
theorem paramCell_after_params (i : Instr) (s : State) :
    paramCell s (i.paramCount + 1) = wrap64 (s.ip.toInt + 1 + i.modes.length) := by
  rw [paramCell_eq, modes_length, Nat.cast_add, Nat.cast_one, ← add_assoc, add_right_comm]

theorem modes_length_of_opcode (i : Instr) :
    i.modes.length = if opcode i ∈ [1, 2, 7, 8] then 3 else if opcode i ∈ [5, 6] then 2
      else if opcode i ∈ [3, 4, 9] then 1 else 0 := by
  cases i <;> rfl

/-- The normal advance of every instruction but the two jumps, whose `Effect` leaves the target open. -/
theorem ip_of_effect {i : Instr} {s t : State} (h : Effect i s t) (hf : t.fault = false)
    (hin : ∀ m, i = .inp m → s.inq ≠ []) (hj : ∀ mA mB, i ≠ .jt mA mB ∧ i ≠ .jf mA mB) :
    t.ip = paramCell s (i.paramCount + 1) := by
  cases h with
  | faulted => cases hf
  | stored _ _ _ _ _ _ _ _ hp => rw [hp]
  | yielded m hi hq => exact absurd hq (hin m hi)
  | received _ _ _ _ _ hi => rw [hi]; rfl
  | output _ _ _ hi => rw [hi]; rfl
  | jumped mA mB _ _ hi => exact (hi.elim (hj mA mB).1 (hj mA mB).2).elim
  | adjusted _ _ _ hi => rw [hi]; rfl
  | halted hi => rw [hi]; rfl

/-- The normal advance of a jump not taken. -/
theorem ip_of_jumpWhen_untaken {test : Word → Bool} {mA mB : Mode} {s t : State}
    (h : jumpWhen test mA mB s = .next t) (hf : t.fault = false) (ht : test (valueOf s 1 mA) = false) :
    t.ip = paramCell s 3 := by
  obtain ⟨valid, invalid⟩ := jumpWhen_spec test mA mB s
  cases hi : firstInvalid s.cfg (valueAccesses s 1 mA ++ valueAccesses s 2 mB) with
  | none =>
    obtain ⟨u, hu, heq, -⟩ := valid hi
    obtain rfl : u = t := by simpa [hu] using h
    rw [heq, ht]
    rfl
  | some a =>
    obtain rfl : raise (addressFault a) s = t := by simpa [invalid a hi] using h
    cases hf

/-! ### The statements -/

/-- Settles O25: an untaken jump by `jumpWhen`'s own rule, every other instruction by its effect. -/
theorem normalAdvance : Obligations.NormalAdvance := by
  intro i s t h hf hin hjt hjf
  refine ⟨?_, modes_length_of_opcode i⟩
  rw [← paramCell_after_params]
  cases i with
  | jt mA mB => exact ip_of_jumpWhen_untaken (exec_jt mA mB s ▸ h) hf (by simp [isNonzero, hjt mA mB rfl])
  | jf mA mB => exact ip_of_jumpWhen_untaken (exec_jf mA mB s ▸ h) hf (by simpa [isZero] using hjf mA mB rfl)
  | _ => exact ip_of_effect (effect_of_exec h) hf hin (by simp)

/-- Settles O6: the rules of a step in a RUN, at the end of one and with no command; outside a RUN a next
state comes from a command alone, and `CommandKeeps` has what that leaves. -/
theorem coreStepsOnlyInsideRun : Obligations.CoreStepsOnlyInsideRun := by
  refine fun s => ⟨step_of_coreMoves, fun ha hm => ?_, step_of_idle, fun t ha _ hl h => ?_⟩
  · exact ⟨endRun s, step_of_run_over ha hm, endRun_runActive s, fun _ => rfl⟩
  · cases hp : s.pending with
    | nil => exact absurd h (step_of_idle ha hp t)
    | cons c rest =>
      rw [step_of_command ha hp] at h
      obtain ⟨-, rfl⟩ := hostCommand_next h
      have keeps := performCommand_keeps { s with pending := rest } c fun image hc =>
        hl ⟨image, ha, rest, hc ▸ hp⟩
      exact ⟨keeps.ip, keeps.rb⟩

end Sys2Proof
end

section
/-! PROOFS. Host interface (spec/47_host_interface.md R189, R190, R203): the input commands by STATUS and
by the room in INQ. PUSH_INPUT is SEED_INPUT of one value, so the three cases are proved of SEED_INPUT. -/

namespace Sys2Proof

open Sys2Proof.Machine

/-! ### When input is refused -/

theorem inputOverflows_iff (s : State) (n : Nat) :
    inputOverflows s n = true ↔ ∃ cap, s.cfg.inqCap = some cap ∧ cap < s.inq.length + n := by
  unfold inputOverflows
  cases s.cfg.inqCap <;> simp

theorem inputRefusal_halted {s : State} (h : s.status = .halted) (n : Nat) : inputRefusal s n = none :=
  if_neg fun refused => refused.1 h

theorem inputRefusal_room {s : State} {n : Nat}
    (h : ∀ cap, s.cfg.inqCap = some cap → s.inq.length + n ≤ cap) : inputRefusal s n = none := by
  refine if_neg fun ⟨_, overflow⟩ => ?_
  obtain ⟨cap, hc, hlt⟩ := (inputOverflows_iff s n).mp overflow
  exact (h cap hc).not_gt hlt

theorem inputRefusal_full {s : State} {n : Nat} (hs : s.status ≠ .halted)
    (h : ∃ cap, s.cfg.inqCap = some cap ∧ cap < s.inq.length + n) :
    inputRefusal s n = some .inputQueueFull :=
  if_pos ⟨hs, (inputOverflows_iff s n).mpr h⟩

/-! ### SEED_INPUT and PUSH_INPUT on a machine without a fault -/

theorem commandRefusal_seedInput {s : State} (hf : s.fault = false) (values : List Word) :
    commandRefusal s (.seedInput values) = inputRefusal s values.length := by
  simp [commandRefusal, hf]

theorem hostCommand_seedInput_halted {s : State} (hf : s.fault = false) (values : List Word)
    (hs : s.status = .halted) : hostCommand (.seedInput values) s = .next s := by
  have legal := (commandRefusal_seedInput hf values).trans (inputRefusal_halted hs _)
  rw [hostCommand_legal legal, performCommand, seedInput_halted values hs]

/-- An empty list leaves STATUS as it was, since no value is pushed. -/
theorem hostCommand_seedInput_room {s : State} (hf : s.fault = false) (values : List Word)
    (hs : s.status ≠ .halted) (room : ∀ cap, s.cfg.inqCap = some cap → s.inq.length + values.length ≤ cap) :
    hostCommand (.seedInput values) s = .next { s with
      inq := s.inq ++ values, status := if values = [] then s.status else .running } := by
  have legal := (commandRefusal_seedInput hf values).trans (inputRefusal_room room)
  rw [hostCommand_legal legal, performCommand]
  cases values with
  | nil => simp
  | cons v values => rw [seedInput_live v values hs, if_neg (List.cons_ne_nil v values)]

theorem hostCommand_seedInput_full {s : State} (hf : s.fault = false) (values : List Word)
    (hs : s.status ≠ .halted) (full : ∃ cap, s.cfg.inqCap = some cap ∧ cap < s.inq.length + values.length) :
    hostCommand (.seedInput values) s = .refused (.hostCommand .inputQueueFull) :=
  hostCommand_refused ((commandRefusal_seedInput hf values).trans (inputRefusal_full hs full))

/-- R189 read for one value. -/
theorem hostCommand_pushInput (s : State) (v : Word) :
    hostCommand (.pushInput v) s = hostCommand (.seedInput [v]) s := rfl

/-! ### The statements -/

/-- Settles O45: the host's turn is `hostCommand`, and SEED_INPUT's three cases are the clauses. -/
theorem seedInputPushesInOrder : Obligations.SeedInputPushesInOrder := by
  intro s values rest ha hf hp
  have live : State.fault { s with pending := rest } = false := hf
  rw [step_of_command ha hp]
  exact ⟨hostCommand_seedInput_halted live values, hostCommand_seedInput_room live values,
    hostCommand_seedInput_full live values⟩

/-- Settles O44: PUSH_INPUT is SEED_INPUT of one value, where "room" and "full" are about `length + 1`. -/
theorem pushInputByStatus : Obligations.PushInputByStatus := by
  intro s v rest ha hf hp
  have live : State.fault { s with pending := rest } = false := hf
  rw [step_of_command ha hp, hostCommand_pushInput]
  refine ⟨hostCommand_seedInput_halted live [v], fun hs room => ?_, fun hs ⟨cap, hc, full⟩ => ?_⟩
  · exact hostCommand_seedInput_room live [v] hs fun cap hc => Nat.succ_le_of_lt (room cap hc)
  · exact hostCommand_seedInput_full live [v] hs ⟨cap, hc, Nat.lt_succ_of_le full⟩

end Sys2Proof
end

section
/-! PROOFS. Storing instructions (spec/40_operand_resolution.md R114, R115): a store reaches the cell its
destination names, and mode digit 1 on a destination is mode 0 (spec/70_reset_and_hazards.md R248). -/

namespace Sys2Proof

open Sys2Proof.Machine

/-! ### What a storing instruction stores, and where -/

theorem storesAt_of_mem_eq_write {s t : State} {d v : Word} (h : t.mem = s.mem.write d.toNat v) :
    StoresAt s t d v := by
  refine ⟨?_, fun a ha => ?_⟩
  · rw [h, Memory.read_write, if_pos rfl]
  · rw [h, Memory.read_write, if_neg ha]

theorem equals_eq_ite_toInt (a b : Word) : equals a b = if a.toInt = b.toInt then 1 else 0 := by
  simp only [equals, BitVec.toInt_inj]

theorem storeBinary_storesAt (f : Word → Word → Word) {mA mB mC : Mode} {s : State}
    (h : firstInvalid s.cfg (valueAccesses s 1 mA ++ valueAccesses s 2 mB ++ destAccesses s 3 mC) = none) :
    ∃ t, storeBinary f mA mB mC s = .next t ∧
      StoresAt s t (destAddr s 3 mC) (f (valueOf s 1 mA) (valueOf s 2 mB)) := by
  obtain ⟨t, ht, heq, -⟩ := (storeBinary_spec f mA mB mC s).1 h
  exact ⟨t, ht, storesAt_of_mem_eq_write (congrArg State.mem heq)⟩

theorem execIn_storesAt {mA : Mode} {s : State} {v : Word} (hv : s.inq.head? = some v)
    (h : firstInvalid s.cfg (accesses s (.inp mA)) = none) :
    ∃ t, execIn mA s = .next t ∧ StoresAt s t (destAddr s 1 mA) v := by
  obtain ⟨rest, hq⟩ := List.head?_eq_some_iff.1 hv
  rw [accesses, if_neg (by simp [hq])] at h
  obtain ⟨t, ht, heq, -⟩ := (execIn_spec mA s).2.1 v rest hq h
  exact ⟨t, ht, storesAt_of_mem_eq_write (congrArg State.mem heq)⟩

/-- The store of every instruction with a destination, in every mode of it. -/
theorem exec_storesAt {i : Instr} {m : Mode} {s : State} {v : Word} (hm : i.destMode = some m)
    (valid : AccessesValid s i) (hv : storedValue s i = some v) :
    ∃ t, exec i s = .next t ∧ StoresAt s t (destAddr s i.paramCount m) v := by
  have h := (accessesValid_iff s i).1 valid
  cases i with
  | add mA mB mC => cases hm; cases hv; exact storeBinary_storesAt wrappedSum h
  | mul mA mB mC => cases hm; cases hv; exact storeBinary_storesAt wrappedProduct h
  | lt mA mB mC => cases hm; cases hv; exact storeBinary_storesAt lessThan h
  | eq mA mB mC => cases hm; cases hv; exact equals_eq_ite_toInt _ _ ▸ storeBinary_storesAt equals h
  | inp mA => cases hm; exact execIn_storesAt hv h
  | out | jt | jf | arb | halt => cases hm

/-! ### Immediate destinations -/

/-- R115: the two modes name the same address, so DestParam cannot tell them apart. -/
theorem destParam_immediate : destParam .immediate = destParam .positional := rfl

theorem storeBinary_immediate (f : Word → Word → Word) (mA mB : Mode) :
    storeBinary f mA mB .immediate = storeBinary f mA mB .positional := by
  funext s
  simp only [storeBinary, destParam_immediate]

theorem execIn_immediate : execIn .immediate = execIn .positional := by
  funext s
  simp only [execIn, destParam_immediate]

theorem sameOutcome_of_eq {o p : Host.Outcome State Fault Refusal} (h : o = p) : SameOutcome o p :=
  congrArg definedOutcome h

theorem sameOutcome_storeBinary_immediate (f : Word → Word → Word) (mA mB : Mode) (s : State) :
    SameOutcome (storeBinary f mA mB .immediate s) (storeBinary f mA mB .positional s) :=
  sameOutcome_of_eq (congrFun (storeBinary_immediate f mA mB) s)

/-! ### The statement -/

/-- Settles O24: DestParam is one function in the two modes, and the store goes where the destination
parameter names, which in mode Immediate is the address in the parameter word. -/
theorem immediateDestinationIsPositional : Obligations.ImmediateDestinationIsPositional := by
  refine fun mA mB s => ⟨⟨?_, ?_, ?_, ?_, ?_⟩, fun i v hi valid hv => ?_⟩
  · exact sameOutcome_storeBinary_immediate wrappedSum mA mB s
  · exact sameOutcome_storeBinary_immediate wrappedProduct mA mB s
  · exact sameOutcome_storeBinary_immediate lessThan mA mB s
  · exact sameOutcome_storeBinary_immediate equals mA mB s
  · exact sameOutcome_of_eq (congrFun execIn_immediate s)
  · have hm : i.destMode = some .immediate := by
      simp only [List.mem_cons, List.not_mem_nil, or_false] at hi
      obtain rfl | rfl | rfl | rfl | rfl := hi <;> rfl
    exact exec_storesAt hm valid hv

end Sys2Proof
end

section
/-! PROOFS. Encoding (spec/30_encoding.md R80, R88, R91, R92): an instruction comes back from its word and from its
cells, the digits that count, and the least word of an instruction. -/

namespace Sys2Proof

open Sys2Proof.Machine

/-! ### The digits of an encoded word -/

theorem modeOfDigit_modeDigit (m : Mode) : modeOfDigit (modeDigit m) = m := by cases m <;> rfl

/-- The mode field is the number with the digits of the modes, the first parameter's lowest (R94). -/
theorem modeDigits_eq_ofDigits (i : Instr) : modeDigits i = Nat.ofDigits 10 (i.modes.map modeDigit) := by
  cases i <;> simp [modeDigits, Instr.modes, Nat.ofDigits_cons] <;> ring

theorem modeDigits_digit {i : Instr} {k : Nat} {m : Mode} (h : i.modes[k]? = some m) :
    modeDigits i / 10 ^ k % 10 = modeDigit m := by
  have small : ∀ d ∈ i.modes.map modeDigit, d < 10 := by
    simp only [List.mem_map]
    rintro _ ⟨m, -, rfl⟩
    cases m <;> decide
  obtain ⟨hk, rfl⟩ := List.getElem?_eq_some_iff.1 h
  rw [modeDigits_eq_ofDigits, Nat.ofDigits_div_pow_eq_ofDigits_drop k (by decide) _ small,
    List.drop_eq_getElem_cons (by simpa using hk), Nat.ofDigits_cons, Nat.add_mul_mod_self_left,
    List.getElem_map, Nat.mod_eq_of_lt (small _ (List.mem_map_of_mem (List.getElem_mem hk)))]

theorem paramMode_encode {i : Instr} {k : Nat} {m : Mode} (h : i.modes[k]? = some m) :
    paramMode (encode i) k = m := by
  obtain ⟨hn, -, -, hop⟩ := Laws.encodeFields i
  have high : (encode i).toNat / 10 ^ 2 = modeDigits i := by omega
  rw [paramMode, add_comm k, pow_add, ← Nat.div_div_eq_div_mul, high, modeDigits_digit h, modeOfDigit_modeDigit]

theorem modes_encode (i : Instr) : i.modes = (List.range i.paramCount).map (paramMode (encode i)) := by
  refine List.ext_getElem (by simp [modes_length]) fun k hk _ => ?_
  rw [List.getElem_map, List.getElem_range, paramMode_encode (List.getElem?_eq_getElem hk)]

/-- A word's opcode and modes make the instruction it decodes to: the converse of `decode_cases`. -/
theorem decodeCase_of_fields {w : Word} {i : Instr} (hop : w.toNat % 100 = opcode i)
    (hm : i.modes = (List.range i.paramCount).map (paramMode w)) : DecodeCase w i := by
  cases i with
  | add => cases hm; exact .add hop
  | mul => cases hm; exact .mul hop
  | inp => cases hm; exact .inp hop
  | out => cases hm; exact .out hop
  | jt => cases hm; exact .jt hop
  | jf => cases hm; exact .jf hop
  | lt => cases hm; exact .lt hop
  | eq => cases hm; exact .eq hop
  | arb => cases hm; exact .arb hop
  | halt => exact .halt hop

theorem decode_encode (i : Instr) : decode (encode i) = .ok i := by
  obtain ⟨-, -, nonneg, hop⟩ := Laws.encodeFields i
  exact decode_of_case nonneg (decodeCase_of_fields hop (modes_encode i))

/-! ### The digits that count -/

theorem decodeNat_mod (n : Nat) : decodeNat (n % 100000) = decodeNat n := by
  have hop : n % 100000 % 100 = n % 100 := Nat.mod_mod_of_dvd n (by decide)
  have digit_mod : ∀ k ∈ [2, 3, 4], digit (n % 100000) k = digit n k := by
    simp only [List.forall_mem_cons, digit]
    refine ⟨?_, ?_, ?_, by simp⟩ <;> omega
  simp only [List.forall_mem_cons] at digit_mod
  obtain ⟨hA, hB, hC, -⟩ := digit_mod
  simp only [decodeNat, hop, hA, hB, hC]

theorem modeDigit_paramMode_le (w : Word) (k : Nat) : modeDigit (paramMode w k) ≤ w.toNat / 10 ^ (k + 2) % 10 := by
  unfold paramMode modeOfDigit
  split
  · simp [modeDigit, *]
  · split <;> simp [modeDigit, *]

/-! ### The canonical form -/

theorem modeDigit_asDest_le (m : Mode) : modeDigit m.asDest ≤ modeDigit m := by cases m <;> decide

theorem opcode_canonical (i : Instr) : opcode i.canonical = opcode i := by cases i <;> rfl

theorem canonical_wellFormed (i : Instr) : i.canonical.wellFormed = true := by
  have asDest_ne : ∀ m : Mode, (some m.asDest != some Mode.immediate) = true := by
    intro m
    cases m <;> rfl
  cases i with
  | add _ _ m | mul _ _ m | lt _ _ m | eq _ _ m | inp m => exact asDest_ne m
  | out | jt | jf | arb | halt => rfl

theorem modeDigits_canonical_le (i : Instr) : modeDigits i.canonical ≤ modeDigits i := by
  cases i with
  | add _ _ m | mul _ _ m | lt _ _ m | eq _ _ m =>
    exact Nat.add_le_add_left (Nat.mul_le_mul_left 100 (modeDigit_asDest_le m)) _
  | inp m => exact modeDigit_asDest_le m
  | out | jt | jf | arb | halt => exact le_rfl

/-- The modes of a decoded word never need a greater digit than the word has. -/
theorem modeDigits_le_of_decode {w : Word} {i : Instr} (h : decode w = .ok i) : modeDigits i ≤ w.toNat / 100 := by
  have hA := modeDigit_paramMode_le w 0
  have hB := modeDigit_paramMode_le w 1
  have hC := modeDigit_paramMode_le w 2
  cases decode_cases h <;> simp only [modeDigits] <;> omega

theorem encode_canonical_le {w : Word} {i : Instr} (h : decode w = .ok i) :
    (encode i.canonical).toNat ≤ w.toNat := by
  obtain ⟨hn, -, -, -⟩ := Laws.encodeFields i.canonical
  have high := (modeDigits_canonical_le i).trans (modeDigits_le_of_decode h)
  have low := (opcode_canonical i).trans (opcode_of_decode h)
  omega

theorem storeBinary_asDest (f : Word → Word → Word) (mA mB mC : Mode) :
    storeBinary f mA mB mC.asDest = storeBinary f mA mB mC := by
  cases mC with
  | immediate => exact (storeBinary_immediate f mA mB).symm
  | positional | relative => rfl

theorem execIn_asDest (mA : Mode) : execIn mA.asDest = execIn mA := by
  cases mA with
  | immediate => exact execIn_immediate.symm
  | positional | relative => rfl

theorem exec_canonical (i : Instr) (s : State) : exec i.canonical s = exec i s := by
  cases i with
  | add mA mB mC => exact congrFun (storeBinary_asDest wrappedSum mA mB mC) s
  | mul mA mB mC => exact congrFun (storeBinary_asDest wrappedProduct mA mB mC) s
  | lt mA mB mC => exact congrFun (storeBinary_asDest lessThan mA mB mC) s
  | eq mA mB mC => exact congrFun (storeBinary_asDest equals mA mB mC) s
  | inp mA => exact congrFun (execIn_asDest mA) s
  | out | jt | jf | arb | halt => rfl

/-! ### The statements -/

/-- Settles O11: the fields of the encoded word are the instruction's, and `disassemble` takes as many cells
after it as there are parameters. -/
theorem decodeOfEncode : Obligations.DecodeOfEncode := by
  refine ⟨decode_encode, fun c rest hlen => ?_⟩
  have enough : c.instr.paramCount ≤ (c.params ++ rest).length := by simp [hlen]
  rw [assemble, List.cons_append, disassemble_cons (decode_encode _) enough, ← hlen,
    List.take_left, List.drop_left]

/-- Settles O8: a word that decodes has an opcode and no sign, and every such word is a `DecodeCase`. -/
theorem decodeIsTotalByFields : Obligations.DecodeIsTotalByFields := by
  refine fun w => ⟨⟨fun ⟨i, h⟩ => ⟨nonneg_of_decode h, ?_⟩, fun ⟨nonneg, hop⟩ => ?_⟩,
    fun i h => ⟨opcode_of_decode h, modes_length i, fun _ _ => mode_of_decode h⟩⟩
  · exact opcode_of_decode h ▸ opcode_mem_of_format (format_mem_formats i)
  · obtain ⟨i, hi⟩ := DecodeCase.exists_of_opcode hop
    exact ⟨i, decode_of_case nonneg hi⟩

/-- Settles O10: the decoder reads the low five digits only. -/
theorem highDigitsIgnored : Obligations.HighDigitsIgnored := by
  intro w nonneg
  have lt : w.toNat % 100000 < 100000 := Nat.mod_lt _ (by decide)
  have hn : (BitVec.ofNat 64 (w.toNat % 100000)).toNat = w.toNat % 100000 :=
    (BitVec.toNat_ofNat _ _).trans (Nat.mod_eq_of_lt (by omega))
  rw [decode_of_nonneg nonneg, decode_of_nonneg (toInt_nonneg_of_lt (by omega)), hn, decodeNat_mod]

/-- Settles O12: no digit of the canonical word is above the word's own, and R115 makes the two run alike. -/
theorem canonicalWordIsLeast : Obligations.CanonicalWordIsLeast := fun _ i h =>
  ⟨canonical_wellFormed i, decode_encode _, encode_canonical_le h,
    fun s => sameOutcome_of_eq (exec_canonical i s)⟩

/-- Settles O7, by running the decoder. -/
theorem sampleWordsDecode : Obligations.SampleWordsDecode := by
  unfold Obligations.SampleWordsDecode
  decide

end Sys2Proof
end

section
/-! PROOFS. Instructions run side by side (spec/10_state.md section 3, spec/45_relative_base.md): a relation of
states that operands cannot tell apart is kept by every instruction. It is used twice: for states that differ
in the hidden length, and for states that differ in RB. -/

namespace Sys2Proof

open Sys2Proof.Machine

/-! ### Relations operands cannot tell apart -/

/-- Related states agree in all an instruction reads but RB, and stay related when both change alike. -/
structure Alike (R : State → State → Prop) : Prop where
  ip {s t : State} : R s t → t.ip = s.ip
  mem {s t : State} : R s t → t.mem = s.mem
  cfg {s t : State} : R s t → t.cfg = s.cfg
  inq {s t : State} : R s t → t.inq = s.inq
  outq {s t : State} : R s t → t.outq = s.outq
  touch {s t : State} (a : Nat) : R s t → R (touch s a) (touch t a)
  setIp {s t : State} (v : Word) : R s t → R { s with ip := v } { t with ip := v }
  setMem {s t : State} (m : Memory) : R s t → R { s with mem := m } { t with mem := m }
  setStatus {s t : State} (x : Status) : R s t → R { s with status := x } { t with status := x }
  setInq {s t : State} (q : List Word) : R s t → R { s with inq := q } { t with inq := q }
  setOutq {s t : State} (q : List Word) : R s t → R { s with outq := q } { t with outq := q }
  raise {s t : State} (r : Raise) : R s t → R (raise r s) (raise r t)

/-- Related states agree in RB too, and stay related when both set it alike. -/
structure AlikeBase (R : State → State → Prop) : Prop where
  rb {s t : State} : R s t → t.rb = s.rb
  setRb {s t : State} (v : Word) : R s t → R { s with rb := v } { t with rb := v }

/-- Two results of a part of an instruction agree: the same fault, or values that are related. -/
inductive Agree {α : Type} (Q : α → α → Prop) : Except Raise α → Except Raise α → Prop where
  | ok {a b : α} (h : Q a b) : Agree Q (.ok a) (.ok b)
  | error (r : Raise) : Agree Q (.error r) (.error r)

/-- The results of a memory read: the same value, states related. -/
def SameRead (R : State → State → Prop) (x y : Word × State) : Prop := x.1 = y.1 ∧ R x.2 y.2

/-- The results of an operand: the same value and cursor, states related. -/
def SameOperand (R : State → State → Prop) (x y : Word × Word × State) : Prop := x.1 = y.1 ∧ SameRead R x.2 y.2

/-- Two outcomes are next states, related. -/
def BothNext (R : State → State → Prop) (o p : Host.Outcome State Fault Refusal) : Prop :=
  ∃ s t, o = .next s ∧ p = .next t ∧ R s t

theorem Agree.bind {α β : Type} {Q : α → α → Prop} {P : β → β → Prop} {x y : Except Raise α}
    {f g : α → Except Raise β} (h : Agree Q x y) (k : ∀ a b, Q a b → Agree P (f a) (g b)) :
    Agree P (x >>= f) (y >>= g) := by
  cases h with
  | ok h => exact k _ _ h
  | error r => exact .error r

/-- Operands that agree, handed to what reads their value and cursor. -/
theorem Agree.bindOperand {α : Type} {R : State → State → Prop} {P : α → α → Prop}
    {x y : Except Raise (Word × Word × State)} {f g : Word × Word × State → Except Raise α}
    (h : Agree (SameOperand R) x y) (k : ∀ a c u v, R u v → Agree P (f (a, c, u)) (g (a, c, v))) :
    Agree P (x >>= f) (y >>= g) := by
  refine h.bind ?_
  rintro ⟨a, c, u⟩ ⟨_, _, v⟩ ⟨⟨⟩, ⟨⟩, huv⟩
  exact k a c u v huv

theorem valueAddress_congr {m : Mode} {rb rb' : Word} (h : m ≠ .relative ∨ rb' = rb) (c p : Word) :
    valueAddress m rb' c p = valueAddress m rb c p := by
  cases m with
  | positional | immediate => rfl
  | relative => rw [h.resolve_left (absurd rfl)]

theorem destAddress_congr {m : Mode} {rb rb' : Word} (h : m ≠ .relative ∨ rb' = rb) (p : Word) :
    destAddress m rb' p = destAddress m rb p := by
  cases m with
  | positional | immediate => rfl
  | relative => rw [h.resolve_left (absurd rfl)]

theorem adjustBase_agree {R : State → State → Prop} (hb : AlikeBase R) {s t : State} (h : R s t) (v : Word) :
    Agree R (adjustBase v s) (adjustBase v t) := by
  rw [adjustBase, adjustBase, hb.rb h]
  exact .ok (hb.setRb _ h)

section

variable {R : State → State → Prop} (hR : Alike R) {s t : State} (h : R s t)

include hR h

/-! ### State operations -/

theorem cellAt_alike (a : Word) : cellAt t a = cellAt s a := by
  rw [cellAt, cellAt, hR.mem h]

theorem putCell_alike (a : Nat) (v : Word) : R (putCell s a v) (putCell t a v) := by
  rw [putCell, putCell, hR.mem h]
  exact hR.setMem _ (hR.touch a h)

theorem memRead_agree (a : Word) : Agree (SameRead R) (memRead s a) (memRead t a) := by
  rw [memRead, memRead, hR.cfg h, cellAt_alike hR h]
  split
  · exact .ok ⟨rfl, hR.touch _ h⟩
  · exact .error _

theorem memWrite_agree (a v : Word) : Agree R (memWrite s a v) (memWrite t a v) := by
  rw [memWrite, memWrite, hR.cfg h]
  split
  · exact .ok (putCell_alike hR h _ _)
  · exact .error _

theorem appendOutput_agree (v : Word) : Agree R (appendOutput v s) (appendOutput v t) := by
  have same : t.cfg.outqCap = some t.outq.length ↔ s.cfg.outqCap = some s.outq.length := by
    rw [hR.cfg h, hR.outq h]
  by_cases full : s.cfg.outqCap = some s.outq.length
  · rw [appendOutput, appendOutput, if_pos full, if_pos (same.2 full)]
    exact .error _
  · rw [appendOutput, appendOutput, if_neg full, if_neg (mt same.1 full), hR.outq h]
    exact .ok (hR.setOutq _ h)

theorem finish_bothNext {x y : Except Raise State} (hxy : Agree R x y) : BothNext R (finish s x) (finish t y) := by
  cases hxy with
  | ok h' => exact ⟨_, _, rfl, rfl, h'⟩
  | error r => exact ⟨_, _, rfl, rfl, hR.raise r h⟩

/-! ### Operands -/

theorem readParam_agree {m : Mode} (hm : m ≠ .relative ∨ AlikeBase R) (c : Word) :
    Agree (SameOperand R) (readParam m c s) (readParam m c t) := by
  refine (memRead_agree hR h _).bind ?_
  rintro ⟨p, u⟩ ⟨_, v⟩ ⟨⟨⟩, huv⟩
  have sameAddress := valueAddress_congr (hm.imp_right fun hb => hb.rb huv) (nextCell c) p
  simp only [sameAddress]
  exact (memRead_agree hR huv _).bind fun _ _ ⟨hv, h'⟩ => .ok ⟨hv, rfl, h'⟩

theorem destParam_agree {m : Mode} (hm : m ≠ .relative ∨ AlikeBase R) (c : Word) :
    Agree (SameOperand R) (destParam m c s) (destParam m c t) := by
  refine (memRead_agree hR h _).bind ?_
  rintro ⟨p, u⟩ ⟨_, v⟩ ⟨⟨⟩, huv⟩
  exact .ok ⟨(destAddress_congr (hm.imp_right fun hb => hb.rb huv) p).symm, rfl, huv⟩

/-! ### Instructions -/

theorem storeBinary_bothNext (f : Word → Word → Word) {mA mB mC : Mode}
    (hA : mA ≠ .relative ∨ AlikeBase R) (hB : mB ≠ .relative ∨ AlikeBase R)
    (hC : mC ≠ .relative ∨ AlikeBase R) :
    BothNext R (storeBinary f mA mB mC s) (storeBinary f mA mB mC t) := by
  refine finish_bothNext hR h ?_
  rw [hR.ip h]
  refine (readParam_agree hR h hA _).bindOperand fun a c u v h1 => ?_
  refine (readParam_agree hR h1 hB c).bindOperand fun b c u v h2 => ?_
  refine (destParam_agree hR h2 hC c).bindOperand fun d c u v h3 => ?_
  exact (memWrite_agree hR h3 d _).bind fun _ _ h4 => .ok (hR.setIp _ h4)

theorem jumpWhen_bothNext (test : Word → Bool) {mA mB : Mode}
    (hA : mA ≠ .relative ∨ AlikeBase R) (hB : mB ≠ .relative ∨ AlikeBase R) :
    BothNext R (jumpWhen test mA mB s) (jumpWhen test mA mB t) := by
  refine finish_bothNext hR h ?_
  rw [hR.ip h]
  refine (readParam_agree hR h hA _).bindOperand fun a c u v h1 => ?_
  refine (readParam_agree hR h1 hB c).bindOperand fun b c u v h2 => ?_
  cases ht : test a
  · simpa only [ht] using .ok (hR.setIp _ h2)
  · simpa only [ht] using .ok (hR.setIp _ h2)

theorem consumeValue_bothNext {act : Word → State → Except Raise State}
    (hact : ∀ a u v, R u v → Agree R (act a u) (act a v)) {mA : Mode} (hA : mA ≠ .relative ∨ AlikeBase R) :
    BothNext R (consumeValue act mA s) (consumeValue act mA t) := by
  refine finish_bothNext hR h ?_
  rw [hR.ip h]
  refine (readParam_agree hR h hA _).bindOperand fun a c u v h1 => ?_
  exact (hact a u v h1).bind fun _ _ h2 => .ok (hR.setIp _ h2)

theorem execIn_bothNext {mA : Mode} (hA : mA ≠ .relative ∨ AlikeBase R) :
    BothNext R (execIn mA s) (execIn mA t) := by
  have hq := hR.inq h
  cases hs : s.inq with
  | nil => exact ⟨_, _, (execIn_spec mA s).1 hs, (execIn_spec mA t).1 (hq.trans hs), hR.setStatus _ h⟩
  | cons v rest =>
    simp only [execIn, hs, hq.trans hs]
    refine finish_bothNext hR h ?_
    rw [hR.ip h]
    refine (destParam_agree hR h hA _).bindOperand fun d c u v h1 => ?_
    exact (memWrite_agree hR h1 d _).bind fun _ _ h2 => .ok (hR.setIp _ (hR.setInq rest h2))

/-- Every instruction keeps the relation, provided it does not use RB or the relation holds it equal. -/
theorem exec_bothNext {i : Instr} (hm : ∀ m ∈ i.modes, m ≠ .relative ∨ AlikeBase R)
    (harb : (∀ m, i ≠ .arb m) ∨ AlikeBase R) : BothNext R (exec i s) (exec i t) := by
  cases i <;> simp only [Instr.modes, List.forall_mem_cons] at hm
  case add | mul | lt | eq =>
    obtain ⟨hA, hB, hC, -⟩ := hm
    exact storeBinary_bothNext hR h _ hA hB hC
  case jt | jf =>
    obtain ⟨hA, hB, -⟩ := hm
    exact jumpWhen_bothNext hR h _ hA hB
  case inp =>
    exact execIn_bothNext hR h hm.1
  case out =>
    exact consumeValue_bothNext hR h (fun v _ _ h' => appendOutput_agree hR h' v) hm.1
  case arb mA =>
    have hb := harb.resolve_left fun hn => hn mA rfl
    exact consumeValue_bothNext hR h (fun v _ _ h' => adjustBase_agree hb h' v) hm.1
  case halt =>
    have sameCell : paramCell t 1 = paramCell s 1 := by rw [paramCell, paramCell, hR.ip h]
    refine ⟨_, _, exec_halt s, exec_halt t, ?_⟩
    rw [sameCell]
    exact hR.setIp (paramCell s 1) (hR.setStatus .halted h)

end

/-! ### States that differ in RB -/

/-- `t` is `s` with RB `r`. -/
def WithBase (r : Word) (s t : State) : Prop := t = { s with rb := r }

theorem alike_withBase (r : Word) : Alike (WithBase r) where
  ip := by rintro s _ rfl; rfl
  mem := by rintro s _ rfl; rfl
  cfg := by rintro s _ rfl; rfl
  inq := by rintro s _ rfl; rfl
  outq := by rintro s _ rfl; rfl
  touch := by rintro s _ a rfl; rfl
  setIp := by rintro s _ v rfl; rfl
  setMem := by rintro s _ m rfl; rfl
  setStatus := by rintro s _ x rfl; rfl
  setInq := by rintro s _ q rfl; rfl
  setOutq := by rintro s _ q rfl; rfl
  raise := by rintro s _ r rfl; rfl

/-! ### States that differ in the hidden length -/

/-- `t` is `s` but for the hidden length and the history of growth. -/
def SameButLen (s t : State) : Prop := ∃ len growths, t = { s with len := len, growths := growths }

theorem SameButLen.fields {s t : State} (h : SameButLen s t) :
    t.status = s.status ∧ t.fault = s.fault ∧ t.runActive = s.runActive ∧ t.pending = s.pending := by
  obtain ⟨l, g, rfl⟩ := h
  exact ⟨rfl, rfl, rfl, rfl⟩

theorem alike_sameButLen : Alike SameButLen where
  ip := by rintro s _ ⟨l, g, rfl⟩; rfl
  mem := by rintro s _ ⟨l, g, rfl⟩; rfl
  cfg := by rintro s _ ⟨l, g, rfl⟩; rfl
  inq := by rintro s _ ⟨l, g, rfl⟩; rfl
  outq := by rintro s _ ⟨l, g, rfl⟩; rfl
  touch := by rintro s _ a ⟨l, g, rfl⟩; exact ⟨_, _, rfl⟩
  setIp := by rintro s _ v ⟨l, g, rfl⟩; exact ⟨_, _, rfl⟩
  setMem := by rintro s _ m ⟨l, g, rfl⟩; exact ⟨_, _, rfl⟩
  setStatus := by rintro s _ x ⟨l, g, rfl⟩; exact ⟨_, _, rfl⟩
  setInq := by rintro s _ q ⟨l, g, rfl⟩; exact ⟨_, _, rfl⟩
  setOutq := by rintro s _ q ⟨l, g, rfl⟩; exact ⟨_, _, rfl⟩
  raise := by rintro s _ r ⟨l, g, rfl⟩; exact ⟨_, _, rfl⟩

theorem alikeBase_sameButLen : AlikeBase SameButLen where
  rb := by rintro s _ ⟨l, g, rfl⟩; rfl
  setRb := by rintro s _ v ⟨l, g, rfl⟩; exact ⟨_, _, rfl⟩

theorem forgetOutcome_of_bothNext {o p : Host.Outcome State Fault Refusal} (h : BothNext SameButLen o p) :
    forgetOutcome p = forgetOutcome o := by
  obtain ⟨s, _, rfl, rfl, ⟨l, g, rfl⟩⟩ := h
  rfl

theorem exec_sameButLen (i : Instr) {s t : State} (h : SameButLen s t) : BothNext SameButLen (exec i s) (exec i t) :=
  exec_bothNext alike_sameButLen h (fun _ _ => .inr alikeBase_sameButLen) (.inr alikeBase_sameButLen)

theorem coreStep_sameButLen {s t : State} (h : SameButLen s t) : BothNext SameButLen (coreStep s) (coreStep t) := by
  have hip := alike_sameButLen.ip h
  have hcell := cellAt_alike alike_sameButLen h s.ip
  have hcfg := alike_sameButLen.cfg h
  have hgrown := alike_sameButLen.touch s.ip.toNat h
  cases hv : validAddr s.cfg s.ip with
  | false =>
    refine ⟨_, _, coreStep_invalid hv, coreStep_invalid (by rwa [hcfg, hip]), ?_⟩
    rw [hip]
    exact alike_sameButLen.raise _ h
  | true =>
    have hv' : validAddr t.cfg t.ip = true := by rwa [hcfg, hip]
    cases hd : decode (cellAt s s.ip) with
    | error e =>
      refine ⟨_, _, coreStep_illegal hv hd, coreStep_illegal hv' (by rwa [hip, hcell]), ?_⟩
      rw [hip, hcell]
      exact alike_sameButLen.raise _ hgrown
    | ok i =>
      rw [coreStep_ok hv hd, coreStep_ok hv' (by rwa [hip, hcell]), hip]
      exact exec_sameButLen i hgrown

theorem pushInput_sameButLen (v : Word) {s t : State} (h : SameButLen s t) :
    SameButLen (pushInput v s) (pushInput v t) := by
  have sameStatus := h.fields.1
  obtain ⟨l, g, rfl⟩ := h
  by_cases hs : s.status = .halted
  · rw [pushInput_halted hs, pushInput_halted (sameStatus.trans hs)]
    exact ⟨l, g, rfl⟩
  · rw [pushInput_live hs, pushInput_live (sameStatus.trans_ne hs)]
    exact ⟨l, g, rfl⟩

theorem seedInput_sameButLen (values : List Word) {s t : State} (h : SameButLen s t) :
    SameButLen (values.foldl (fun t v => pushInput v t) s) (values.foldl (fun t v => pushInput v t) t) := by
  induction values generalizing s t with
  | nil => exact h
  | cons v values ih => exact ih (pushInput_sameButLen v h)

theorem startRun_sameButLen {s t : State} (h : SameButLen s t) : SameButLen (startRun s) (startRun t) := by
  have sameStatus := h.fields.1
  obtain ⟨l, g, rfl⟩ := h
  by_cases hs : s.status = .halted
  · rw [startRun_halted hs, startRun_halted (sameStatus.trans hs)]
    exact ⟨l, g, rfl⟩
  · rw [startRun_live hs, startRun_live (sameStatus.trans_ne hs)]
    exact ⟨l, g, rfl⟩

theorem performCommand_sameButLen (c : HostCommand) {s t : State} (h : SameButLen s t) :
    SameButLen (performCommand s c) (performCommand t c) := by
  cases c with
  | load => obtain ⟨l, g, rfl⟩ := h; exact ⟨_, _, rfl⟩
  | cfgCell0 v => exact putCell_alike alike_sameButLen h 0 v
  | cfgNounVerb noun verb => exact putCell_alike alike_sameButLen (putCell_alike alike_sameButLen h 1 noun) 2 verb
  | pushInput v => exact pushInput_sameButLen v h
  | seedInput values => exact seedInput_sameButLen values h
  | run => exact startRun_sameButLen h
  | readStatus => obtain ⟨l, g, rfl⟩ := h; exact ⟨l, g, rfl⟩
  | readOutput => obtain ⟨l, g, rfl⟩ := h; exact ⟨l, g, rfl⟩
  | peek a => obtain ⟨l, g, rfl⟩ := h; exact ⟨_, _, rfl⟩

theorem hostCommand_sameButLen (c : HostCommand) {s t : State} (h : SameButLen s t) :
    forgetOutcome (hostCommand c t) = forgetOutcome (hostCommand c s) := by
  have sameRefusal : commandRefusal t c = commandRefusal s c := by
    obtain ⟨l, g, rfl⟩ := h
    cases c <;> rfl
  cases hc : commandRefusal s c with
  | some why => rw [hostCommand_refused hc, hostCommand_refused (sameRefusal.trans hc)]
  | none =>
    rw [hostCommand_legal hc, hostCommand_legal (sameRefusal.trans hc)]
    exact forgetOutcome_of_bothNext ⟨_, _, rfl, rfl, performCommand_sameButLen c h⟩

/-- No step tells the two apart: not CORE's, not the run loop's, not the host's. -/
theorem step_sameButLen {s t : State} (h : SameButLen s t) : forgetOutcome (step t) = forgetOutcome (step s) := by
  obtain ⟨sameStatus, sameFault, sameActive, samePending⟩ := h.fields
  cases ha : s.runActive with
  | true =>
    have sameMoves : CoreMoves t ↔ CoreMoves s := by rw [CoreMoves, CoreMoves, sameStatus, sameFault, sameActive]
    by_cases hm : CoreMoves s
    · rw [step_of_coreMoves hm, step_of_coreMoves (sameMoves.2 hm)]
      exact forgetOutcome_of_bothNext (coreStep_sameButLen h)
    · rw [step_of_run_over ha hm, step_of_run_over (sameActive.trans ha) (mt sameMoves.1 hm)]
      obtain ⟨l, g, rfl⟩ := h
      rfl
  | false =>
    cases hp : s.pending with
    | nil =>
      obtain ⟨l, g, rfl⟩ := h
      simp only [step, turn, ha, hostTurn, hp, Bool.false_eq_true, if_false]
    | cons c rest =>
      rw [step_of_command ha hp, step_of_command (sameActive.trans ha) (samePending.trans hp)]
      obtain ⟨l, g, rfl⟩ := h
      exact hostCommand_sameButLen c ⟨l, g, rfl⟩

/-! ### The statements -/

/-- Settles O40: a step of CORE keeps `SameButLen`, and the run loop and the host's commands do so too. -/
theorem lenIsUnobservable : Obligations.LenIsUnobservable :=
  fun _ len growths => sameOutcome_of_eq (step_sameButLen ⟨len, growths, rfl⟩)

/-- Settles O27: without a Relative parameter and apart from ARB, no operand reads RB. -/
theorem baseOnlyInRelativeMode : Obligations.BaseOnlyInRelativeMode := by
  intro i s t r hm harb h
  obtain ⟨u, _, hu, hv, rfl⟩ : BothNext (WithBase r) (exec i s) (exec i { s with rb := r }) :=
    exec_bothNext (alike_withBase r) rfl (fun m hi => .inl (hm m hi)) (.inl harb)
  obtain rfl : u = t := by simpa [hu] using h
  exact ⟨fun _ => hv, fun hf => ⟨_, hv, hf, rfl, rfl, rfl⟩⟩

end Sys2Proof
end

section
/-! PROOFS. The machine's invariant (spec/10_state.md section 9): memory in canonical form, a coherent latch and,
while FAULT = 0, `Live`. What faults, instructions and commands make of it, then every step. -/

namespace Sys2Proof

open Sys2Proof.Machine

/-! ### One rule for every change without a fault -/

/-- The part of `Live` that speaks of the queues. -/
def QueuesKept (s : State) : Prop :=
  (s.status = .yielded → s.inq = []) ∧ (∀ cap, s.cfg.inqCap = some cap → s.inq.length ≤ cap) ∧
  ∀ cap, s.cfg.outqCap = some cap → s.outq.length ≤ cap

/-- `t`'s memory is `s`'s, or `s`'s after one write inside the tape and below MEM_LIMIT. -/
def WritesInside (s t : State) : Prop :=
  t.mem = s.mem ∨ ∃ a v, t.mem = s.mem.write a v ∧ a < t.len ∧ ∀ limit, s.cfg.memLimit = some limit → a < limit

theorem queuesKept_of_live {s : State} (h : Live s) : QueuesKept s := ⟨h.yielded_empty, h.inq_cap, h.outq_cap⟩

theorem WritesInside.wf {s t : State} (h : WritesInside s t) (hs : s.mem.wf) : t.mem.wf := by
  obtain h | ⟨a, v, h, -, -⟩ := h
  · rwa [h]
  · exact h ▸ Memory.write_wf hs a v

theorem WritesInside.listed {s t : State} (h : WritesInside s t) :
    ∀ x ∈ t.mem, x ∈ s.mem ∨ x.1 < t.len ∧ ∀ limit, s.cfg.memLimit = some limit → x.1 < limit := by
  intro x hx
  obtain h | ⟨a, v, h, hlen, hlimit⟩ := h
  · exact .inl (h ▸ hx)
  · obtain rfl | hs := Memory.mem_write (h ▸ hx)
    · exact .inr ⟨hlen, hlimit⟩
    · exact .inl hs

theorem live_of_change {s t : State} (h : Live s) (hcfg : t.cfg = s.cfg) (hlen : s.len ≤ t.len)
    (hmem : WritesInside s t) (hq : QueuesKept t) : Live t where
  listed_below_len x hx := (hmem.listed x hx).elim (fun hs => (h.listed_below_len x hs).trans_le hlen) (·.1)
  listed_below_limit limit hl x hx := by
    rw [hcfg] at hl
    exact (hmem.listed x hx).elim (h.listed_below_limit limit hl x) (·.2 limit hl)
  yielded_empty := hq.1
  inq_cap := hq.2.1
  outq_cap := hq.2.2

theorem inv_of_change {s t : State} (h : Inv s) (hcfg : t.cfg = s.cfg)
    (hlatch : t.fault = s.fault ∧ t.fcause = s.fcause ∧ t.fip = s.fip ∧ t.finfo = s.finfo)
    (hlen : s.len ≤ t.len) (hmem : WritesInside s t) (hq : Live s → QueuesKept t) : Inv t := by
  obtain ⟨hf, hc, hip, hinfo⟩ := hlatch
  exact {
    canonical := hmem.wf h.canonical
    latch_clear := by rw [hf, hc, hip, hinfo]; exact h.latch_clear
    latch_set := by rw [hf, hc]; exact h.latch_set
    live := fun hclear =>
      have l := h.live (hf ▸ hclear)
      live_of_change l hcfg hlen hmem (hq l) }

/-! ### The bounds a legal access or command has -/

theorem toNat_lt_limit_of_validAddr {cfg : Config} {a : Word} (h : validAddr cfg a = true) :
    ∀ limit, cfg.memLimit = some limit → a.toNat < limit := by
  intro limit hl
  simp only [validAddr, hl, Bool.and_eq_true, decide_eq_true_eq] at h
  obtain ⟨nonneg, below⟩ := h
  rw [BitVec.toInt_eq_toNat_of_lt (BitVec.toInt_pos_iff.1 nonneg)] at below
  exact Int.ofNat_lt.1 below

theorem limitBelow_iff (cfg : Config) (n : Nat) :
    limitBelow cfg n = true ↔ ∃ limit, cfg.memLimit = some limit ∧ limit < n := by
  unfold limitBelow
  cases cfg.memLimit <;> simp

/-- A command that R199 bars from a faulted machine, where it is legal. -/
theorem legal_of_guard {b : Bool} {o : Option CommandRefusal} (h : (if b then some .faulted else o) = none) :
    b = false ∧ o = none := by
  cases b with
  | true => cases h
  | false => exact ⟨rfl, h⟩

theorem limit_of_legal {cfg : Config} {n : Nat} {why : CommandRefusal}
    (h : (if limitBelow cfg n then some why else none) = none) :
    ∀ limit, cfg.memLimit = some limit → n ≤ limit := by
  intro limit hl
  by_contra above
  rw [if_pos ((limitBelow_iff cfg n).2 ⟨limit, hl, not_le.1 above⟩)] at h
  cases h

theorem room_of_inputRefusal {s : State} {n : Nat} (h : inputRefusal s n = none) (hs : s.status ≠ .halted) :
    ∀ cap, s.cfg.inqCap = some cap → s.inq.length + n ≤ cap := by
  intro cap hc
  by_contra hlt
  rw [inputRefusal_full hs ⟨cap, hc, by omega⟩] at h
  cases h

/-! ### Faults and instructions -/

theorem inv_raise {s : State} (h : Inv s) {r : Raise} (hr : r.cause ≠ .none) : Inv (raise r s) where
  canonical := h.canonical
  latch_clear := nofun
  latch_set _ := hr
  live := nofun

theorem inv_touch {s : State} (h : Inv s) (a : Nat) : Inv (touch s a) :=
  inv_of_change h rfl ⟨rfl, rfl, rfl, rfl⟩ (le_grownLen _ _ _) (.inl rfl) queuesKept_of_live

theorem inv_effect {i : Instr} {s t : State} (h : Inv s) (he : Effect i s t) : Inv t := by
  cases he with
  | faulted r hr => exact inv_raise h (by rcases hr with hr | hr <;> simp [hr])
  | stored m v len growths _ hlen hd hv =>
    exact inv_of_change h rfl ⟨rfl, rfl, rfl, rfl⟩ hlen (.inr ⟨_, v, rfl, hd, toNat_lt_limit_of_validAddr hv⟩)
      queuesKept_of_live
  | yielded m _ hq =>
    exact inv_of_change h rfl ⟨rfl, rfl, rfl, rfl⟩ le_rfl (.inl rfl)
      fun l => ⟨fun _ => hq, l.inq_cap, l.outq_cap⟩
  | received m v rest len growths _ hq hlen hd hv =>
    refine inv_of_change h rfl ⟨rfl, rfl, rfl, rfl⟩ hlen (.inr ⟨_, v, rfl, hd, toNat_lt_limit_of_validAddr hv⟩)
      fun l => ⟨fun hy => ?_, fun cap hc => ?_, l.outq_cap⟩
    · cases hq.symm.trans (l.yielded_empty hy)
    · have all := l.inq_cap cap hc
      rw [hq] at all
      exact (Nat.le_succ _).trans all
  | output m len growths _ hlen hc =>
    refine inv_of_change h rfl ⟨rfl, rfl, rfl, rfl⟩ hlen (.inl rfl)
      fun l => ⟨l.yielded_empty, l.inq_cap, fun cap hcap => ?_⟩
    have notFull : s.outq.length ≠ cap := fun full => hc (full ▸ hcap)
    rw [List.length_append]
    exact Nat.lt_of_le_of_ne (l.outq_cap cap hcap) notFull
  | jumped _ _ len growths _ hlen =>
    exact inv_of_change h rfl ⟨rfl, rfl, rfl, rfl⟩ hlen (.inl rfl) queuesKept_of_live
  | adjusted _ len growths _ hlen =>
    exact inv_of_change h rfl ⟨rfl, rfl, rfl, rfl⟩ hlen (.inl rfl) queuesKept_of_live
  | halted =>
    exact inv_of_change h rfl ⟨rfl, rfl, rfl, rfl⟩ le_rfl (.inl rfl)
      fun l => ⟨nofun, l.inq_cap, l.outq_cap⟩

/-! ### The host's commands -/

theorem inv_putCell {s : State} (h : Inv s) {a : Nat} (v : Word)
    (hlimit : ∀ limit, s.cfg.memLimit = some limit → a < limit) : Inv (putCell s a v) :=
  inv_of_change h rfl ⟨rfl, rfl, rfl, rfl⟩ (le_grownLen _ _ _) (.inr ⟨a, v, rfl, lt_grownLen _ _ _, hlimit⟩)
    queuesKept_of_live

theorem inv_reply {s : State} (h : Inv s) (r : HostReply) : Inv (reply r s) :=
  inv_of_change h rfl ⟨rfl, rfl, rfl, rfl⟩ le_rfl (.inl rfl) queuesKept_of_live

theorem inv_loadImage {s : State} {image : List Word}
    (hlimit : ∀ limit, s.cfg.memLimit = some limit → image.length ≤ limit) : Inv (loadImage image s) := by
  have inside : ∀ x ∈ Memory.ofImageFrom 0 image, x.1 < image.length := fun x hx => by
    simpa using (Memory.mem_ofImageFrom hx).2
  exact {
    canonical := Memory.ofImageFrom_wf image 0
    latch_clear := fun _ => ⟨rfl, rfl, rfl⟩
    latch_set := nofun
    live := fun _ => {
      listed_below_len := inside
      listed_below_limit := fun limit hl x hx => (inside x hx).trans_le (hlimit limit hl)
      yielded_empty := nofun
      inq_cap := fun cap _ => Nat.zero_le cap
      outq_cap := fun cap _ => Nat.zero_le cap } }

theorem inv_seedInput {s : State} (h : Inv s) {values : List Word}
    (hl : inputRefusal s values.length = none) : Inv (performCommand s (.seedInput values)) := by
  rw [performCommand]
  by_cases hs : s.status = .halted
  · rwa [seedInput_halted values hs]
  · cases values with
    | nil => exact h
    | cons v values =>
      rw [seedInput_live v values hs]
      refine inv_of_change h rfl ⟨rfl, rfl, rfl, rfl⟩ le_rfl (.inl rfl) fun l => ⟨nofun, ?_, l.outq_cap⟩
      intro cap hc
      rw [List.length_append]
      exact room_of_inputRefusal hl hs cap hc

theorem inv_startRun {s : State} (h : Inv s) : Inv (startRun s) := by
  by_cases hs : s.status = .halted
  · rw [startRun_halted hs]
    exact inv_of_change h rfl ⟨rfl, rfl, rfl, rfl⟩ le_rfl (.inl rfl)
      fun l => ⟨l.yielded_empty, l.inq_cap, fun cap _ => Nat.zero_le cap⟩
  · rw [startRun_live hs]
    exact inv_of_change h rfl ⟨rfl, rfl, rfl, rfl⟩ le_rfl (.inl rfl)
      fun l => ⟨nofun, l.inq_cap, fun cap _ => Nat.zero_le cap⟩

theorem inv_performCommand {s : State} {c : HostCommand} (h : Inv s) (hl : commandRefusal s c = none) :
    Inv (performCommand s c) := by
  cases c with
  | load image => exact inv_loadImage (limit_of_legal hl)
  | cfgCell0 v => exact inv_putCell h v (limit_of_legal (legal_of_guard hl).2)
  | cfgNounVerb noun verb =>
    have three := limit_of_legal (legal_of_guard hl).2
    exact inv_putCell (inv_putCell h noun fun limit hm => (by decide : 1 < 3).trans_le (three limit hm)) verb three
  | seedInput values => exact inv_seedInput h (legal_of_guard hl).2
  | pushInput v => exact inv_seedInput (values := [v]) h (legal_of_guard hl).2
  | run => exact inv_startRun h
  | readStatus => exact inv_reply h _
  | readOutput => exact inv_reply h _
  | peek a => exact inv_reply (inv_touch h _) _

/-! ### The statements -/

/-- Settles O3: by the cases of a step, each of which keeps the invariant. -/
theorem stepKeepsInvariant : Obligations.StepKeepsInvariant := by
  intro s t h hst
  cases step_cases hst with
  | fetchFault _ _ ht => exact ht ▸ inv_raise h nofun
  | illegal _ _ _ _ ht => exact ht ▸ inv_raise (inv_touch h _) nofun
  | instr _ _ _ _ he => exact inv_effect (inv_touch h _) he
  | runOver _ _ ht => exact ht ▸ inv_of_change h rfl ⟨rfl, rfl, rfl, rfl⟩ le_rfl (.inl rfl) queuesKept_of_live
  | command _ c rest _ hl ht =>
    have issued : Inv { s with pending := rest } :=
      inv_of_change h rfl ⟨rfl, rfl, rfl, rfl⟩ le_rfl (.inl rfl) queuesKept_of_live
    exact ht ▸ inv_performCommand issued hl

/-- Settles O2: reset is LOAD of the empty image. -/
theorem resetMeetsInvariant : Obligations.ResetMeetsInvariant :=
  inv_loadImage (s := State.reset) (image := []) fun limit _ => Nat.zero_le limit

/-- Settles O1: each field of `State.reset`. -/
theorem resetValues : Obligations.ResetValues :=
  ⟨rfl, rfl, rfl, Memory.read_nil, rfl, rfl, rfl, rfl, rfl, rfl, rfl, rfl⟩

end Sys2Proof
end

section
/-! PROOFS. The instructions (spec/41_arithmetic.md to spec/46_system.md): the complete effect of each where its
accesses are valid, and the fault of the first invalid access of every one (spec/60_exceptions.md R216). -/

namespace Sys2Proof

open Sys2Proof.Machine

/-- What some next state of an outcome meets, every next state of it meets. -/
theorem holds_of_next {o : Host.Outcome State Fault Refusal} {p : State → Prop} {t : State} (h : o = .next t)
    (spec : ∃ u, o = .next u ∧ p u) : p t := by
  obtain ⟨u, hu, hp⟩ := spec
  cases hu.symm.trans h
  exact hp

/-! ### Faults -/

theorem latched_raise (r : Raise) (s : State) : Latched s (raise r s) r.cause r.info := ⟨rfl, rfl, rfl, rfl⟩

/-- R216 for every instruction. -/
theorem exec_invalid {i : Instr} {s : State} {a : Word} (h : firstInvalid s.cfg (accesses s i) = some a) :
    exec i s = .next (raise (addressFault a) s) := by
  cases i with
  | add mA mB mC => exact (storeBinary_spec wrappedSum mA mB mC s).2 a h
  | mul mA mB mC => exact (storeBinary_spec wrappedProduct mA mB mC s).2 a h
  | lt mA mB mC => exact (storeBinary_spec lessThan mA mB mC s).2 a h
  | eq mA mB mC => exact (storeBinary_spec equals mA mB mC s).2 a h
  | jt mA mB => exact (jumpWhen_spec isNonzero mA mB s).2 a h
  | jf mA mB => exact (jumpWhen_spec isZero mA mB s).2 a h
  | out mA => exact (execOut_spec mA s).2.2 a h
  | arb mA => exact (execArb_spec mA s).2 a h
  | inp mA =>
    cases hq : s.inq with
    | nil => simp [accesses, hq, firstInvalid] at h
    | cons v rest => exact (execIn_spec mA s).2.2 v rest a hq (by simpa [accesses, hq] using h)
  | halt => cases h

theorem firstInvalid_of_unfaulted {i : Instr} {s t : State} (h : exec i s = .next t) (hf : t.fault = false) :
    firstInvalid s.cfg (accesses s i) = none := by
  cases hi : firstInvalid s.cfg (accesses s i) with
  | none => rfl
  | some a =>
    obtain rfl : raise (addressFault a) s = t := by simpa [exec_invalid hi] using h
    cases hf

/-! ### The forms -/

theorem storeBinary_completes (f : Word → Word → Word) {mA mB mC : Mode} {s : State}
    (h : firstInvalid s.cfg (valueAccesses s 1 mA ++ valueAccesses s 2 mB ++ destAccesses s 3 mC) = none) :
    ∃ t, storeBinary f mA mB mC s = .next t ∧ StoresAt s t (destAddr s 3 mC) (f (valueOf s 1 mA) (valueOf s 2 mB)) ∧
      t.ip = paramCell s 4 ∧ KeepsAllButIpMem s t := by
  obtain ⟨t, ht, heq, -⟩ := (storeBinary_spec f mA mB mC s).1 h
  refine ⟨t, ht, storesAt_of_mem_eq_write (congrArg State.mem heq), congrArg State.ip heq, ?_⟩
  rw [KeepsAllButIpMem, heq]

theorem execIn_completes {mA : Mode} {s : State} {v : Word} {rest : List Word} (hq : s.inq = v :: rest)
    (h : firstInvalid s.cfg (accesses s (.inp mA)) = none) :
    ∃ t, execIn mA s = .next t ∧ StoresAt s t (destAddr s 1 mA) v ∧ t.inq = rest ∧
      t.ip = paramCell s 2 ∧ KeepsAllButIpMemInq s t := by
  rw [accesses, if_neg (by simp [hq])] at h
  obtain ⟨t, ht, heq, -⟩ := (execIn_spec mA s).2.1 v rest hq h
  refine ⟨t, ht, storesAt_of_mem_eq_write (congrArg State.mem heq), congrArg State.inq heq, congrArg State.ip heq, ?_⟩
  rw [KeepsAllButIpMemInq, heq]

theorem jumpWhen_completes (test : Word → Bool) {mA mB : Mode} {s : State}
    (h : firstInvalid s.cfg (valueAccesses s 1 mA ++ valueAccesses s 2 mB) = none) :
    ∃ t, jumpWhen test mA mB s = .next t ∧
      t.ip = (if test (valueOf s 1 mA) then valueOf s 2 mB else paramCell s 3) ∧
      KeepsAllButIp s t ∧ KeepsCells s t := by
  obtain ⟨t, ht, heq, -⟩ := (jumpWhen_spec test mA mB s).1 h
  refine ⟨t, ht, congrArg State.ip heq, ?_, fun a => congrArg (fun u => u.mem.read a) heq⟩
  rw [KeepsAllButIp, heq]

theorem isNonzero_iff (a : Word) : isNonzero a = true ↔ a ≠ 0 := bne_iff_ne

theorem isZero_iff (a : Word) : isZero a = true ↔ a = 0 := beq_iff_eq

/-! ### Encodings -/

theorem encodedAs_of_case {op : Nat} {mk : Mode → Mode → Mode → Instr}
    (h : ∀ w : Word, w.toNat % 100 = op → DecodeCase w (mk (paramMode w 0) (paramMode w 1) (paramMode w 2))) :
    EncodedAs op mk :=
  fun w nonneg hop => decode_of_case nonneg (h w hop)

/-! ### Arithmetic -/

/-- Decision D1: exact inside Int64, congruent beyond it. -/
theorem wrap64_exact_and_congruent (z : Int) :
    (-2 ^ 63 ≤ z ∧ z < 2 ^ 63 → (wrap64 z).toInt = z) ∧ (2 ^ 64 : Int) ∣ (wrap64 z).toInt - z := by
  refine ⟨wrap64_exact, ?_⟩
  rw [wrap64_toInt]
  exact Int.dvd_bmod_sub_self

/-! ### The statements -/

/-- Settles O31: every form of instruction raises the fault of its first invalid access. -/
theorem firstInvalidAccessFaults : Obligations.FirstInvalidAccessFaults :=
  fun _ s a h => ⟨_, exec_invalid h, latched_raise (addressFault a) s⟩

/-- Settles O5: `exec_effect` names the next state. -/
theorem everyInstructionAnswersNext : Obligations.EveryInstructionAnswersNext := fun i s =>
  have ⟨t, ht, _⟩ := exec_effect i s
  ⟨t, ht⟩

/-- Settles O13: the rule of format VVD, of the wrapped sum. -/
theorem addStoresWrappedSum : Obligations.AddStoresWrappedSum := fun _ _ _ s valid =>
  storeBinary_completes wrappedSum ((accessesValid_iff s _).1 valid)

/-- Settles O14: the rule of format VVD, of the wrapped product. -/
theorem mulStoresWrappedProduct : Obligations.MulStoresWrappedProduct := fun _ _ _ s valid =>
  storeBinary_completes wrappedProduct ((accessesValid_iff s _).1 valid)

/-- Settles O16: the decoder's case of opcode 7, the rule of format VVD, and R216. -/
theorem ltStoresSignedComparison : Obligations.LtStoresSignedComparison :=
  ⟨encodedAs_of_case fun _ => .lt, fun _ _ _ s =>
    ⟨fun valid => storeBinary_completes lessThan ((accessesValid_iff s _).1 valid), firstInvalidAccessFaults _ s⟩⟩

/-- Settles O17: as LT; equal words are equal integers. -/
theorem eqStoresEquality : Obligations.EqStoresEquality := by
  refine ⟨encodedAs_of_case fun _ => .eq, fun mA mB mC s => ⟨fun valid => ?_, firstInvalidAccessFaults _ s⟩⟩
  rw [← equals_eq_ite_toInt]
  exact storeBinary_completes equals ((accessesValid_iff s _).1 valid)

/-- Settles O20: the rule of format VV, with the test `isNonzero`. -/
theorem jumpIfTrueSetsIp : Obligations.JumpIfTrueSetsIp := by
  intro mA mB s valid
  obtain ⟨t, ht, hip, keeps⟩ := jumpWhen_completes isNonzero ((accessesValid_iff s _).1 valid)
  exact ⟨t, ht, hip.trans (if_congr (isNonzero_iff _) rfl rfl), keeps⟩

/-- Settles O21: the rule of format VV, with the test `isZero`. -/
theorem jumpIfFalseSetsIp : Obligations.JumpIfFalseSetsIp := by
  intro mA mB s valid
  obtain ⟨t, ht, hip, keeps⟩ := jumpWhen_completes isZero ((accessesValid_iff s _).1 valid)
  exact ⟨t, ht, hip.trans (if_congr (isZero_iff _) rfl rfl), keeps⟩

/-- Settles O22: the rule of ARB, whose value is read before RB is written. -/
theorem arbAddsToBase : Obligations.ArbAddsToBase := by
  intro mA s valid
  obtain ⟨t, ht, heq, -⟩ := (execArb_spec mA s).1 ((accessesValid_iff s _).1 valid)
  refine ⟨t, ht, congrArg State.rb heq, congrArg State.ip heq, ?_, fun a => congrArg (fun u => u.mem.read a) heq⟩
  rw [KeepsAllButIpRb, heq]

/-- Settles O23: HALT's arm of `exec`, where the next cell is `wrap64(IP + 1)`. -/
theorem haltSetsHalted : Obligations.HaltSetsHalted := exec_halt

/-- Settles O18: the decoder's case of opcode 3, the two rules of IN, and R216. -/
theorem inputStoresOldestOrYields : Obligations.InputStoresOldestOrYields :=
  ⟨encodedAs_of_case fun _ => .inp, fun mA s => ⟨(execIn_spec mA s).1,
    fun _ _ hq valid => execIn_completes hq ((accessesValid_iff s _).1 valid), firstInvalidAccessFaults _ s⟩⟩

/-- Settles O19: the decoder's case of opcode 4, the rules of OUT below and at OUTQ_CAP, and R216. -/
theorem outputAppendsOrOverflows : Obligations.OutputAppendsOrOverflows := by
  refine ⟨encodedAs_of_case fun _ => .out, fun mA s => ⟨fun valid hc => ?_, fun valid hc => ?_,
    firstInvalidAccessFaults _ s⟩⟩
  · obtain ⟨t, ht, heq, -⟩ := (execOut_spec mA s).1 ((accessesValid_iff s _).1 valid) hc
    refine ⟨t, ht, congrArg State.outq heq, congrArg State.ip heq, ?_, fun a => congrArg (fun u => u.mem.read a) heq⟩
    rw [KeepsAllButIpOutq, heq]
  · exact ⟨_, (execOut_spec mA s).2.1 ((accessesValid_iff s _).1 valid) hc, latched_raise queueOverflow s⟩

/-- Settles O15: the three results are `wrap64` of the exact ones. -/
theorem arithmeticExactOrCongruent : Obligations.ArithmeticExactOrCongruent := by
  refine ⟨fun mA mB mC s t valid h => ?_, fun mA mB mC s t valid h => ?_, fun mA s t valid h => ?_⟩
  · obtain ⟨⟨result, -⟩, -⟩ := holds_of_next h (addStoresWrappedSum mA mB mC s valid)
    exact result ▸ wrap64_exact_and_congruent _
  · obtain ⟨⟨result, -⟩, -⟩ := holds_of_next h (mulStoresWrappedProduct mA mB mC s valid)
    exact result ▸ wrap64_exact_and_congruent _
  · obtain ⟨result, -⟩ := holds_of_next h (arbAddsToBase mA s valid)
    exact result ▸ wrap64_exact_and_congruent _

end Sys2Proof
end

section
/-! PROOFS. What an instruction does to the tape and the queues (spec/20_memory.md sections 2 and 6,
spec/42_io.md): the cells it writes, the growth its accesses cause, the values the queues gain and lose. -/

namespace Sys2Proof

open Sys2Proof.Machine

/-! ### Growth -/

theorem growsTo_of_exec {i : Instr} {s t : State} (h : exec i s = .next t) (hf : t.fault = false) :
    GrowsTo s.len (accesses s i) t.len := by
  have valid := firstInvalid_of_unfaulted h hf
  cases i with
  | add mA mB mC => exact (holds_of_next h ((storeBinary_spec wrappedSum mA mB mC s).1 valid)).2
  | mul mA mB mC => exact (holds_of_next h ((storeBinary_spec wrappedProduct mA mB mC s).1 valid)).2
  | lt mA mB mC => exact (holds_of_next h ((storeBinary_spec lessThan mA mB mC s).1 valid)).2
  | eq mA mB mC => exact (holds_of_next h ((storeBinary_spec equals mA mB mC s).1 valid)).2
  | jt mA mB => exact (holds_of_next h ((jumpWhen_spec isNonzero mA mB s).1 valid)).2
  | jf mA mB => exact (holds_of_next h ((jumpWhen_spec isZero mA mB s).1 valid)).2
  | arb mA => exact (holds_of_next h ((execArb_spec mA s).1 valid)).2
  | out mA =>
    by_cases full : s.cfg.outqCap = some s.outq.length
    · cases ((execOut_spec mA s).2.1 valid full).symm.trans h
      cases hf
    · exact (holds_of_next h ((execOut_spec mA s).1 valid full)).2
  | inp mA =>
    cases hq : s.inq with
    | nil =>
      cases ((execIn_spec mA s).1 hq).symm.trans h
      rw [accesses, if_pos hq]
      rfl
    | cons v rest =>
      rw [accesses, if_neg (by simp [hq])] at valid ⊢
      exact (holds_of_next h ((execIn_spec mA s).2.1 v rest hq valid)).2
  | halt =>
    cases (exec_halt s).symm.trans h
    rfl

/-- A fetch touches only the hidden length, on which no access depends. -/
theorem accesses_touch (s : State) (a : Nat) (i : Instr) : accesses (touch s a) i = accesses s i := by
  cases i <;> rfl

/-- The fetch grows the tape first, then the instruction. -/
theorem growsTo_of_step {i : Instr} {s t : State} (hm : CoreMoves s) (hd : decode (cellAt s s.ip) = .ok i)
    (h : step s = .next t) (hf : t.fault = false) : GrowsTo s.len (s.ip :: accesses s i) t.len := by
  rw [step_of_coreMoves hm] at h
  cases hv : validAddr s.cfg s.ip with
  | false =>
    cases (coreStep_invalid hv).symm.trans h
    cases hf
  | true =>
    rw [coreStep_ok hv hd] at h
    have grows := growsTo_of_exec h hf
    rw [accesses_touch] at grows
    exact (growsTo_grownLen s.len s.growths s.ip).append grows

/-! ### Every storing instruction -/

theorem keepsAllButIpMemInq_of_keepsAllButIpMem {s t : State} (h : KeepsAllButIpMem s t) :
    KeepsAllButIpMemInq s t := by
  rw [KeepsAllButIpMemInq, h]

theorem storeBinary_completes_inq (f : Word → Word → Word) {mA mB mC : Mode} {s : State}
    (h : firstInvalid s.cfg (valueAccesses s 1 mA ++ valueAccesses s 2 mB ++ destAccesses s 3 mC) = none) :
    ∃ t, storeBinary f mA mB mC s = .next t ∧ StoresAt s t (destAddr s 3 mC) (f (valueOf s 1 mA) (valueOf s 2 mB)) ∧
      t.ip = paramCell s 4 ∧ KeepsAllButIpMemInq s t :=
  (storeBinary_completes f h).imp fun _ ⟨ht, stored, hip, keeps⟩ =>
    ⟨ht, stored, hip, keepsAllButIpMemInq_of_keepsAllButIpMem keeps⟩

theorem exec_store_completes {i : Instr} {m : Mode} {s : State} {v : Word} (hm : i.destMode = some m)
    (valid : AccessesValid s i) (hv : storedValue s i = some v) :
    ∃ t, exec i s = .next t ∧ StoresAt s t (destAddr s i.paramCount m) v ∧
      t.ip = paramCell s (i.paramCount + 1) ∧ KeepsAllButIpMemInq s t := by
  have h := (accessesValid_iff s i).1 valid
  cases i with
  | add mA mB mC => cases hm; cases hv; exact storeBinary_completes_inq wrappedSum h
  | mul mA mB mC => cases hm; cases hv; exact storeBinary_completes_inq wrappedProduct h
  | lt mA mB mC => cases hm; cases hv; exact storeBinary_completes_inq lessThan h
  | eq mA mB mC => cases hm; cases hv; exact equals_eq_ite_toInt _ _ ▸ storeBinary_completes_inq equals h
  | inp mA =>
    cases hm
    obtain ⟨rest, hq⟩ := List.head?_eq_some_iff.1 hv
    obtain ⟨t, ht, stored, -, hip, keeps⟩ := execIn_completes hq h
    exact ⟨t, ht, stored, hip, keeps⟩
  | out | jt | jf | arb | halt => cases hm

theorem destAddr_mem_accesses {i : Instr} {m : Mode} {s : State} {v : Word} (hm : i.destMode = some m)
    (hv : storedValue s i = some v) : destAddr s i.paramCount m ∈ accesses s i := by
  cases i with
  | add | mul | lt | eq => cases hm; simp [accesses, destAccesses, Instr.paramCount]
  | inp mA =>
    cases hm
    obtain ⟨rest, hq⟩ := List.head?_eq_some_iff.1 hv
    simp [accesses, hq, destAccesses, Instr.paramCount]
  | out | jt | jf | arb | halt => cases hm

/-! ### The statements -/

/-- Settles O26: of all effects only the two stores write memory. -/
theorem memoryWrittenOnlyAtDestination : Obligations.MemoryWrittenOnlyAtDestination := by
  intro i s t h hf
  cases effect_of_exec h with
  | faulted => cases hf
  | stored m v len growths hm _ _ _ hp =>
    refine ⟨fun hn => absurd (hm.symm.trans hn) (Option.some_ne_none m), fun m' hm' a ha => ?_⟩
    cases hm.symm.trans hm'
    rw [hp] at ha
    exact (Memory.read_write _ _ _ _).trans (if_neg ha)
  | received m v rest len growths hi =>
    subst hi
    refine ⟨fun hn => absurd hn (Option.some_ne_none m), fun m' hm' a ha => ?_⟩
    cases hm'
    exact (Memory.read_write _ _ _ _).trans (if_neg ha)
  | yielded | output | jumped | adjusted | halted => exact ⟨fun _ _ => rfl, fun _ _ _ _ => rfl⟩

/-- Settles O28: the completed store leaves a machine that CORE steps, with IP at the destination. -/
theorem storeSeenByNextFetch : Obligations.StoreSeenByNextFetch := by
  intro i m v s hm valid hdest hv hnext
  obtain ⟨t, ht, ⟨stored, -⟩, hip, keeps⟩ := exec_store_completes hdest valid hv
  rw [paramCell_after_params, modes_length] at hip
  have hcell : cellAt t t.ip = v := by rw [cellAt, hip, ← hnext, stored]
  have moves : CoreMoves t := by rw [keeps]; exact hm
  have fetchable : validAddr t.cfg t.ip = true := by
    rw [hip, ← hnext, congrArg State.cfg keeps]
    exact valid _ (destAddr_mem_accesses hdest hv)
  have latched := latched_raise (illegalInstruction v) (touch t t.ip.toNat)
  refine ⟨t, ht, moves, hip, hcell, fun j hj => ?_, fun e he => ⟨_, ?_, latched⟩⟩
  · rw [step_of_coreMoves moves, coreStep_ok fetchable (hcell ▸ hj)]
  · rw [step_of_coreMoves moves, coreStep_illegal fetchable (hcell ▸ he), hcell]

/-- Settles O29: of all effects only IN's store moves INQ and only OUT's moves OUTQ. -/
theorem queueOrder : Obligations.QueueOrder := by
  intro i s t h hf
  cases effect_of_exec h with
  | faulted => cases hf
  | received m v rest len growths hi hq =>
    exact ⟨.inr ⟨m, v, hi, hq, (Memory.read_write _ _ _ _).trans (if_pos rfl)⟩, .inl rfl⟩
  | output m len growths hi => exact ⟨.inl rfl, .inr ⟨m, hi, rfl⟩⟩
  | stored | yielded | jumped | adjusted | halted => exact ⟨.inl rfl, .inl rfl⟩

/-- Settles O30: growth access by access, of which the two bounds are `GrowsTo.covers`. -/
theorem growthCoversAccesses : Obligations.GrowthCoversAccesses :=
  ⟨fun _ _ _ h hf => have grows := growsTo_of_exec h hf; ⟨grows, grows.covers⟩,
    fun _ _ _ hm hd h hf => growsTo_of_step hm hd h hf⟩

end Sys2Proof
end

section
/-! PROOFS. The step (spec/40_operand_resolution.md R110, R111, spec/60_exceptions.md section 2): what CORE's step
runs or raises, the latch it cannot clear, and what no step but the named ones changes. -/

namespace Sys2Proof

open Sys2Proof.Machine

/-! ### Steps that are not a LOAD -/

/-- A command that is no LOAD keeps what `CommandKeeps` says. -/
theorem commandKeeps_of_not_load {s : State} {c : HostCommand} {rest : List HostCommand} (ha : s.runActive = false)
    (hp : s.pending = c :: rest) (hl : ¬ LoadIssued s) :
    CommandKeeps { s with pending := rest } (performCommand { s with pending := rest } c) :=
  performCommand_keeps _ c fun image hc => hl ⟨image, ha, rest, hc ▸ hp⟩

/-- R88, R211: a negative word and one whose low digits are no opcode decode to nothing. -/
theorem decode_illegal {w : Word} (h : w.toInt < 0 ∨ w.toNat % 100 ∉ opcodes) : ∃ e, decode w = .error e := by
  cases hd : decode w with
  | error e => exact ⟨e, rfl⟩
  | ok i =>
    obtain ⟨nonneg, hop⟩ := (decodeIsTotalByFields w).1.1 ⟨i, hd⟩
    exact absurd h (not_or_intro nonneg.not_gt (not_not_intro hop))

theorem cfg_of_effect {i : Instr} {s t : State} (h : Effect i s t) : t.cfg = s.cfg := by
  cases h <;> rfl

theorem cfg_of_performCommand (s : State) (c : HostCommand) : (performCommand s c).cfg = s.cfg := by
  cases c with
  | load => rfl
  | _ => exact (performCommand_keeps s _ (by simp)).cfg

theorem startRun_mem (s : State) : (startRun s).mem = s.mem := by
  unfold startRun
  split <;> rfl

theorem len_of_effect {i : Instr} {s t : State} (h : Effect i s t) : s.len ≤ t.len := by
  cases h with
  | faulted | yielded | halted => exact le_rfl
  | stored _ _ _ _ _ hlen => exact hlen
  | received _ _ _ _ _ _ _ hlen => exact hlen
  | output _ _ _ _ hlen => exact hlen
  | jumped _ _ _ _ _ hlen => exact hlen
  | adjusted _ _ _ _ hlen => exact hlen

/-- Of all effects only ARB's changes RB. -/
theorem arb_of_effect {i : Instr} {s t : State} (h : Effect i s t) (hrb : t.rb ≠ s.rb) : ∃ m, i = .arb m := by
  cases h with
  | adjusted m _ _ hi => exact ⟨m, hi⟩
  | faulted | stored | yielded | received | output | jumped | halted => exact absurd rfl hrb

/-- Of the effects only HALT's and a yielding IN's change STATUS. -/
theorem status_of_effect {i : Instr} {s t : State} (h : Effect i s t) (hs : t.status ≠ s.status) :
    i = .halt ∧ t.status = .halted ∨ (∃ m, i = .inp m) ∧ s.inq = [] ∧ t.status = .yielded := by
  cases h with
  | halted hi => exact .inl ⟨hi, rfl⟩
  | yielded m hi hq => exact .inr ⟨⟨m, hi⟩, hq, rfl⟩
  | faulted | stored | received | output | jumped | adjusted => exact absurd rfl hs

/-- Of the host's commands only three change STATUS but by a LOAD, and only from Yielded to Running. -/
theorem status_of_performCommand {s : State} {c : HostCommand} (hc : ∀ image, c ≠ .load image)
    (h : (performCommand s c).status ≠ s.status) :
    s.status = .yielded ∧ (performCommand s c).status = .running ∧
      (c = .run ∨ (∃ v, c = .pushInput v) ∨ ∃ v values, c = .seedInput (v :: values)) := by
  have hs : s.status ≠ .halted := fun hs => h (((performCommand_keeps s c hc).halted hs).1.trans hs.symm)
  have yielded : .running ≠ s.status → s.status = .yielded := by
    cases hst : s.status with
    | running => exact absurd rfl
    | yielded => exact fun _ => rfl
    | halted => exact absurd hst hs
  cases c with
  | load image => exact absurd rfl (hc image)
  | pushInput v =>
    rw [performCommand, pushInput_live hs] at h ⊢
    exact ⟨yielded h, rfl, .inr (.inl ⟨v, rfl⟩)⟩
  | run =>
    rw [performCommand, startRun_live hs] at h ⊢
    exact ⟨yielded h, rfl, .inl rfl⟩
  | seedInput values =>
    cases values with
    | nil => exact absurd rfl h
    | cons v values =>
      rw [performCommand, seedInput_live v values hs] at h ⊢
      exact ⟨yielded h, rfl, .inr (.inr ⟨v, values, rfl⟩)⟩
  | cfgCell0 | cfgNounVerb | readStatus | readOutput | peek => exact absurd rfl h

/-! ### The statements: CORE's step -/

/-- Settles O4: in a RUN that may step, the step is CORE's; CORE's step is fetch, decode, execute. -/
theorem stepRunsDecodedInstruction : Obligations.StepRunsDecodedInstruction := fun _ _ hm hv hd =>
  (step_of_coreMoves hm).trans (coreStep_ok hv hd)

/-- Settles O32: the fetch is the step's first access. -/
theorem fetchFaults : Obligations.FetchFaults := fun s hm hv =>
  ⟨_, (step_of_coreMoves hm).trans (coreStep_invalid hv), latched_raise (addressFault s.ip) s⟩

/-- Settles O33: the word fetched decodes to nothing. -/
theorem illegalWordFaults : Obligations.IllegalWordFaults := by
  intro s hm hv hw
  obtain ⟨e, he⟩ := decode_illegal hw
  exact ⟨_, (step_of_coreMoves hm).trans (coreStep_illegal hv he),
    latched_raise (illegalInstruction (cellAt s s.ip)) (touch s s.ip.toNat)⟩

/-! ### The statements: the latch -/

/-- Settles O34: CORE does not step a faulted machine, and no command but LOAD writes the latch. -/
theorem faultLatchIsSticky : Obligations.FaultLatchIsSticky := by
  intro s t hf hl h
  have stopped : ¬ CoreMoves s := fun ⟨_, _, clear⟩ => Bool.false_ne_true (clear.symm.trans hf)
  cases step_cases h with
  | fetchFault hm => exact absurd hm stopped
  | illegal hm => exact absurd hm stopped
  | instr hm => exact absurd hm stopped
  | runOver _ _ ht => exact ht ▸ ⟨hf, rfl, rfl, rfl⟩
  | command ha c rest hp _ ht =>
    obtain ⟨hfault, hlatch⟩ := (commandKeeps_of_not_load ha hp hl).latch
    exact ht ▸ ⟨hfault.trans hf, hlatch⟩

/-- Settles O50: a latch set on the way would still be set at the end. -/
theorem finalRunNeverFaulted : Obligations.FinalRunNeverFaulted := by
  intro _ t u _ htu ⟨_, clear, _⟩
  by_contra hf
  have sticky : ∀ a b : State, a.fault = true → ¬ LoadIssued a → step a = .next b → b.fault = true :=
    fun a b ha hl h => (faultLatchIsSticky a b ha hl h).1
  exact Bool.false_ne_true (clear.symm.trans (htu.keeps sticky (Bool.not_eq_false _ ▸ hf)))

/-! ### The statements: the whole machine -/

/-- Settles O36: by the cases of a step, of which ARB's effect alone writes RB. -/
theorem baseChangesOnlyByArb : Obligations.BaseChangesOnlyByArb := by
  intro s t h _ hl hrb
  cases step_cases h with
  | fetchFault _ _ ht => exact absurd (ht ▸ rfl) hrb
  | illegal _ _ _ _ ht => exact absurd (ht ▸ rfl) hrb
  | instr hm _ i hd he =>
    obtain ⟨m, rfl⟩ := arb_of_effect he hrb
    exact ⟨hm, m, hd⟩
  | runOver _ _ ht => exact absurd (ht ▸ rfl) hrb
  | command ha c rest hp _ ht => exact absurd (ht ▸ (commandKeeps_of_not_load ha hp hl).rb) hrb

/-- Settles O37: by the cases of a step; `status_of_effect` and `status_of_performCommand` have the changes. -/
theorem statusTransitions : Obligations.StatusTransitions := by
  intro s t h hf hs
  cases step_cases h with
  | fetchFault _ _ ht => exact absurd (ht ▸ rfl) hs
  | illegal _ _ _ _ ht => exact absurd (ht ▸ rfl) hs
  | runOver _ _ ht => exact absurd (ht ▸ rfl) hs
  | instr hm _ i hd he =>
    obtain ⟨rfl, halted⟩ | ⟨⟨m, rfl⟩, hq, yielded⟩ := status_of_effect he hs
    · exact .inr (.inl ⟨hm, hd, halted⟩)
    · exact .inr (.inr (.inl ⟨hm, ⟨m, hd⟩, hq, yielded⟩))
  | command ha c rest hp _ ht =>
    subst ht
    by_cases hl : LoadIssued s
    · obtain ⟨image, -, rest', hp'⟩ := hl
      cases hp.symm.trans hp'
      exact .inl ⟨⟨image, ha, rest, hp⟩, rfl⟩
    · have hc : ∀ image, c ≠ .load image := fun image hc => hl ⟨image, ha, rest, hc ▸ hp⟩
      obtain ⟨yielded, running, hcmd⟩ := status_of_performCommand hc hs
      refine .inr (.inr (.inr ⟨yielded, running, ?_⟩))
      obtain rfl | ⟨v, rfl⟩ | ⟨v, values, rfl⟩ := hcmd
      · exact .inl ⟨ha, rest, hp⟩
      · exact .inr (.inl ⟨v, ha, rest, hp⟩)
      · exact .inr (.inr ⟨v, values, ha, rest, hp⟩)

/-- Settles O38: CORE does not step a Halted machine, and of a Halted machine no command but LOAD changes this. -/
theorem haltedIsAbsorbing : Obligations.HaltedIsAbsorbing := by
  intro s t hs hf hl h
  have stopped : ¬ CoreMoves s := fun ⟨_, running, _⟩ => Status.noConfusion (running.symm.trans hs)
  cases step_cases h with
  | fetchFault hm => exact absurd hm stopped
  | illegal hm => exact absurd hm stopped
  | instr hm => exact absurd hm stopped
  | runOver _ _ ht => exact ht ▸ ⟨hs, hf, rfl, rfl, rfl, fun _ _ => rfl⟩
  | command ha c rest hp _ ht =>
    subst ht
    have keeps := commandKeeps_of_not_load ha hp hl
    obtain ⟨halted, hinq⟩ := keeps.halted hs
    refine ⟨halted, keeps.latch.1.trans hf, keeps.ip, keeps.rb, hinq, fun hrun a => ?_⟩
    obtain ⟨-, rest', hp'⟩ := hrun.resolve_left (ha ▸ Bool.false_ne_true)
    cases hp.symm.trans hp'
    exact congrArg (fun m : Memory => m.read a) (startRun_mem _)

/-- Settles O39: by the cases of a step; the fetch and the instruction grow the tape in turn. -/
theorem lenNeverShrinks : Obligations.LenNeverShrinks := by
  intro s t h _ hl
  cases step_cases h with
  | fetchFault _ _ ht => exact ht ▸ le_rfl
  | illegal _ _ _ _ ht => exact ht ▸ le_grownLen _ _ _
  | instr _ _ _ _ he => exact (le_grownLen _ _ _).trans (len_of_effect he)
  | runOver _ _ ht => exact ht ▸ le_rfl
  | command ha c rest hp _ ht => exact ht ▸ (commandKeeps_of_not_load ha hp hl).len

/-- Settles O41: by the cases of a step, none of which writes the parameters. -/
theorem parametersNeverChange : Obligations.ParametersNeverChange := by
  intro s t h
  cases step_cases h with
  | fetchFault _ _ ht => exact ht ▸ rfl
  | illegal _ _ _ _ ht => exact ht ▸ rfl
  | instr _ _ _ _ he => exact (cfg_of_effect he).trans (touch_cfg s _)
  | runOver _ _ ht => exact ht ▸ rfl
  | command _ c rest _ _ ht => exact ht ▸ cfg_of_performCommand { s with pending := rest } c

/-- Settles O42: `CommandKeeps` has every clause. -/
theorem hostReachIsLimited : Obligations.HostReachIsLimited := by
  intro s t c hf ⟨ha, rest, hp⟩ hc h
  rw [step_of_command ha hp] at h
  obtain ⟨-, rfl⟩ := hostCommand_next h
  have keeps := performCommand_keeps { s with pending := rest } c hc
  obtain ⟨hfault, hlatch⟩ := keeps.latch
  exact ⟨keeps.ip, keeps.rb, keeps.cells, keeps.inq, fun hs => (keeps.halted hs).1, hfault.trans hf, hlatch⟩

end Sys2Proof
end

section
/-! PROOFS. Host commands (spec/47_host_interface.md R186 to R199): when each is refused and what it does where
it is legal; a machine resumed after a yield (spec/42_io.md R141). -/

namespace Sys2Proof

open Sys2Proof.Machine

/-! ### Refusals -/

theorem not_limitBelow_of_le {cfg : Config} {n : Nat} (h : ∀ limit, cfg.memLimit = some limit → n ≤ limit) :
    ¬ limitBelow cfg n = true := by
  intro below
  obtain ⟨limit, hl, lt⟩ := (limitBelow_iff cfg n).1 below
  exact (h limit hl).not_gt lt

/-- R199: on a faulted machine LOAD and READ_STATUS alone are legal. -/
theorem commandRefusal_faulted {s : State} {c : HostCommand} (hf : s.fault = true) (hc : ∀ image, c ≠ .load image)
    (hr : c ≠ .readStatus) : commandRefusal s c = some .faulted := by
  cases c with
  | load image => exact absurd rfl (hc image)
  | readStatus => exact absurd rfl hr
  | _ => exact if_pos hf

theorem commandRefusal_peek {s : State} (hf : s.fault = false) (a : Word) :
    commandRefusal s (.peek a) = peekRefusal s a := by
  simp [commandRefusal, hf]

theorem commandRefusal_cfgCell0 {s : State} (hf : s.fault = false) (v : Word) :
    commandRefusal s (.cfgCell0 v) = if limitBelow s.cfg 1 then some .cellsBeyondLimit else none := by
  simp [commandRefusal, hf]

theorem commandRefusal_cfgNounVerb {s : State} (hf : s.fault = false) (noun verb : Word) :
    commandRefusal s (.cfgNounVerb noun verb) = if limitBelow s.cfg 3 then some .cellsBeyondLimit else none := by
  simp [commandRefusal, hf]

theorem nonneg_of_validAddr {cfg : Config} {a : Word} (h : validAddr cfg a = true) : 0 ≤ a.toInt := by
  simp only [validAddr, Bool.and_eq_true, decide_eq_true_eq] at h
  exact h.1

theorem validAddr_beyond {cfg : Config} {a : Word} {limit : Nat} (hl : cfg.memLimit = some limit)
    (ha : (limit : Int) ≤ a.toInt) : validAddr cfg a = false := by
  simp [validAddr, hl, ha]

theorem peekRefusal_valid {s : State} {a : Word} (h : validAddr s.cfg a = true) : peekRefusal s a = none := by
  rw [peekRefusal, if_neg (nonneg_of_validAddr h).not_gt, if_pos h]

theorem peekRefusal_negative {s : State} {a : Word} (h : a.toInt < 0) : peekRefusal s a = some .negativeAddress :=
  if_pos h

theorem peekRefusal_beyond {s : State} {a : Word} {limit : Nat} (h : 0 ≤ a.toInt)
    (hl : s.cfg.memLimit = some limit) (ha : (limit : Int) ≤ a.toInt) :
    peekRefusal s a = some .addressBeyondLimit := by
  rw [peekRefusal, if_neg h.not_gt, validAddr_beyond hl ha]
  rfl

theorem statusReply_eq {s : State} {b : Bool} (hf : s.fault = b) :
    statusReply s = .status s.status.code b.toNat s.fcause.code s.fip s.finfo := by
  rw [statusReply, hf]

/-- The two stores of CFG_NOUN_VERB, read back. -/
theorem read_write_one_two (m : Memory) (noun verb : Word) (a : Nat) :
    ((m.write 1 noun).write 2 verb).read a = if a = 1 then noun else if a = 2 then verb else m.read a := by
  rw [Memory.read_write, Memory.read_write]
  by_cases h1 : a = 1
  · simp [h1]
  · simp [h1]

/-! ### The host's turn -/

section

variable {s : State} {c : HostCommand} {rest : List HostCommand} (ha : s.runActive = false)
  (hp : s.pending = c :: rest)

include ha hp

theorem step_of_legal (hl : commandRefusal { s with pending := rest } c = none) :
    step s = .next (performCommand { s with pending := rest } c) :=
  (step_of_command ha hp).trans (hostCommand_legal hl)

theorem step_of_refused {why : CommandRefusal} (hw : commandRefusal { s with pending := rest } c = some why) :
    step s = .refused (.hostCommand why) :=
  (step_of_command ha hp).trans (hostCommand_refused hw)

end

/-! ### The statements -/

/-- Settles O35: R199's bar comes before every other refusal; READ_STATUS is under no bar. -/
theorem faultedMachineRefusesCommands : Obligations.FaultedMachineRefusesCommands := by
  intro s c hf ⟨ha, rest, hp⟩ hc
  refine ⟨fun hr => step_of_refused ha hp (commandRefusal_faulted hf hc hr), fun hr => ?_⟩
  subst hr
  refine ⟨_, s.status.code, step_of_legal ha hp rfl, ?_⟩
  rw [performCommand, reply_replies, statusReply_eq (s := { s with pending := rest }) hf]
  rfl

/-- Settles O43: LOAD is legal where MEM_LIMIT is not below the image; every cell is the image's. -/
theorem loadSetsEverything : Obligations.LoadSetsEverything := by
  intro s image rest ha hp
  refine ⟨fun room => ?_, fun limit hl long => ?_⟩
  · refine ⟨_, step_of_legal ha hp (if_neg (not_limitBelow_of_le room)), fun a => ?_,
      rfl, rfl, rfl, rfl, rfl, rfl, rfl, rfl, rfl, rfl, ha, rfl, rfl, rfl⟩
    exact (Memory.read_ofImageFrom image 0 a).trans (if_neg (Nat.not_lt_zero a))
  · exact step_of_refused ha hp (if_pos ((limitBelow_iff s.cfg _).2 ⟨limit, hl, long⟩))

/-- Settles O46: each is one or two stores, legal where MEM_LIMIT is not below the cells it writes. -/
theorem configCommandsWriteCells : Obligations.ConfigCommandsWriteCells := by
  refine ⟨fun s v rest ha hf hp => ?_, fun s noun verb rest ha hf hp => ?_⟩
  · have refusal := commandRefusal_cfgCell0 (s := { s with pending := rest }) hf v
    refine ⟨fun room => ?_, fun small => ?_⟩
    · exact ⟨_, step_of_legal ha hp (refusal.trans (if_neg (not_limitBelow_of_le room))),
        Memory.read_write s.mem 0 v, rfl⟩
    · exact step_of_refused ha hp (refusal.trans (if_pos ((limitBelow_iff s.cfg 1).2 small)))
  · have refusal := commandRefusal_cfgNounVerb (s := { s with pending := rest }) hf noun verb
    refine ⟨fun room => ?_, fun small => ?_⟩
    · exact ⟨_, step_of_legal ha hp (refusal.trans (if_neg (not_limitBelow_of_le room))),
        read_write_one_two s.mem noun verb, rfl⟩
    · exact step_of_refused ha hp (refusal.trans (if_pos ((limitBelow_iff s.cfg 3).2 small)))

/-- Settles O47: RUN is always legal without a fault, and `startRun` has the two cases. -/
theorem runStarts : Obligations.RunStarts := by
  intro s rest ha hf hp
  have legal : commandRefusal { s with pending := rest } .run = none := if_neg (by simp [hf])
  rw [step_of_legal ha hp legal]
  exact ⟨fun hs => congrArg _ (startRun_halted hs), fun hs => congrArg _ (startRun_live hs)⟩

/-- Settles O48: each answer by its command, and the refusals of PEEK by the two bounds of a valid address. -/
theorem readCommandsAnswer : Obligations.ReadCommandsAnswer := by
  intro s c rest ha hf hp
  refine ⟨?_, ?_, ?_, ?_, ?_⟩
  · rintro rfl
    rw [step_of_legal ha hp rfl, performCommand, statusReply_eq (s := { s with pending := rest }) hf]
    cases s.status <;> rfl
  · rintro rfl
    exact step_of_legal ha hp (if_neg (by simp [hf]))
  · rintro a rfl valid
    exact ⟨_, step_of_legal ha hp ((commandRefusal_peek hf a).trans (peekRefusal_valid valid)), rfl⟩
  · rintro a rfl negative
    exact step_of_refused ha hp ((commandRefusal_peek hf a).trans (peekRefusal_negative negative))
  · rintro a limit rfl nonneg hl beyond
    exact step_of_refused ha hp ((commandRefusal_peek hf a).trans (peekRefusal_beyond nonneg hl beyond))

/-- Settles O49: the rules of PUSH_INPUT (O44), of RUN (O47) and of CORE's step (O4), one after another. -/
theorem yieldResumes : Obligations.YieldResumes := by
  intro s v rest i ha hf hs hp room hv hd
  have live : s.status ≠ .halted := by simp [hs]
  have pushed := (pushInputByStatus s v _ ha hf hp).2.1 live room
  have started := (runStarts { s with pending := .run :: rest, inq := s.inq ++ [v], status := .running }
    rest ha hf rfl).2 nofun
  refine ⟨_, _, pushed, started, rfl, ?_⟩
  exact stepRunsDecodedInstruction _ i ⟨rfl, rfl, hf⟩ hv hd

end Sys2Proof
end
